-- ==== Sys2Proof/Word.lean ====
section
/-! DEFINITION. The words of the DISC core (00_scope.md R6, R7; 10_state.md R20), the register slots and the two
forms of an address operand (30_encoding.md R77). -/

namespace Sys2Proof

/-- A byte of memory, the status byte, the pending byte (R27, R31, R50). -/
abbrev Byte := BitVec 8

/-- A register, an address, a word operand: XLEN = ALEN = 16 (R6, R20). -/
abbrev Word := BitVec 16

/-- The eight register slots, selectors 0 to 7 in this order (R20): `R0`..`R5`, then `R6` which is the program counter
and `R7` which is the stack pointer (R23). -/
inductive Reg where
  | r0
  | r1
  | r2
  | r3
  | r4
  | r5
  | pc
  | sp
  deriving DecidableEq, Repr

/-- An address operand (R77): an immediate word (`m` = 0), or a register whose value is the address (`m` = 1). -/
inductive AddrOperand where
  | imm (a : Word)
  | ind (r : Reg)
  deriving DecidableEq, Repr

end Sys2Proof
end

