-- ==== Sys2Proof/Config.lean ====
section
/-! DEFINITION. The names the parameters of 00_scope.md R6 range over: the mnemonics, the nine formats (R78), the
register-selector policy (R75), the interrupt frame order (R216), and the record `Config` that holds one choice of each
parameter. The default values (the table of R80 among them) are `defaultOpcodeMap` and `standardConfig` of
`Sys2Proof/Decode.lean`. -/

namespace Sys2Proof

/-- The 38 mnemonics of the dispatch table (R2, R80), in the order of spec/opcode_table.json. -/
inductive Opcode where
  | noop
  | add
  | sub
  | mul
  | div
  | addc
  | subc
  | mulc
  | divc
  | ldr
  | inc
  | dec
  | uxt
  | lsl
  | lsr
  | ldc
  | ldm
  | strm
  | stcm
  | jsr
  | rtn
  | jre
  | jrn
  | jrg
  | jrge
  | jrl
  | jrle
  | jmp
  | jrz
  | push
  | pushc
  | pop
  | pushs
  | pops
  | sei
  | cli
  | reset
  | halt
  deriving DecidableEq, Repr

/-- The nine formats of R78. -/
inductive Format where
  | f0
  | fr
  | frr
  | frw
  | fw
  | fa
  | fra
  | fwa
  | frwa
  deriving DecidableEq, Repr

/-- The operands of an instruction, one constructor per format of R78, in encoding order. -/
inductive Operands where
  | f0
  | fr (a : Reg)
  | frr (a b : Reg)
  | frw (a : Reg) (w : Word)
  | fw (w : Word)
  | fa (addr : AddrOperand)
  | fra (a : Reg) (addr : AddrOperand)
  | fwa (w : Word) (addr : AddrOperand)
  | frwa (a : Reg) (w : Word) (addr : AddrOperand)
  deriving DecidableEq, Repr

/-- SELECTOR_POLICY (R75): what a register-selector byte above 7 does. -/
inductive SelectorPolicy where
  /-- The default: `IllegalInstruction`. -/
  | fault
  /-- The alternative: the low three bits are used. -/
  | mask
  deriving DecidableEq, Repr

/-- IRQ_FRAME_ORDER (R216): which word of the interrupt frame is pushed first. -/
inductive IrqFrameOrder where
  /-- The default: the status word first, so that the interrupted `pc` is on top. -/
  | statusThenPc
  /-- The alternative: `pc` first, so that the status word is on top. -/
  | pcThenStatus
  deriving DecidableEq, Repr

/-- OPCODE_MAP (R80): rows of a 7-bit opcode number and the mnemonic it selects. -/
abbrev OpcodeMap := List (BitVec 7 × Opcode)

/-- MEM_SIZE's default (R6, R50; D1). -/
def Config.defaultMemSize : Nat := 65536

/-- The sizes MEM_SIZE can take (log 4): at least 2, so that the two bytes of a word are two bytes (C2), and at most what
16-bit addresses name (R50). The two readings of the source, 65536 and 65535 (C1), are among them. -/
abbrev Config.LegalMemSize (n : Nat) : Prop := 2 ≤ n ∧ n ≤ 65536

/-- One choice of the parameters of R6 that a machine can be built with. -/
structure Config where
  /-- MEM_SIZE (R50, D1): the length of the array `Machine.create` makes, which the array carries from then on. -/
  memSize : Nat
  opcodeMap : OpcodeMap
  selectorPolicy : SelectorPolicy
  irqFrameOrder : IrqFrameOrder
  deriving DecidableEq, Repr

/-- The value of `sp` at reset, INITIAL_SP (R6, R37). -/
def Config.initialSp : Word := 0x00A0

/-- The value of `pc` at reset (R6, R37). -/
def Config.resetPc : Word := 0x0000

end Sys2Proof
end

