-- ==== Sys2Proof/Machine/State.lean ====
section
/-! DEFINITION. The state of the DISC core (10_state.md R21, R37), its fault record, and the reasons a step stops. -/

namespace Sys2Proof.Machine

/-- The kinds of fatal runtime failure (60_exceptions.md R231, R232). -/
inductive FaultKind where
  | illegalInstruction
  | divByZero
  deriving DecidableEq, Repr

/-- What a raised fault records (R36, R230): its kind, the address of the opcode byte of the instruction that raised it,
and that opcode byte. -/
structure FaultRecord where
  kind : FaultKind
  pc0 : Word
  opcodeByte : Byte
  deriving DecidableEq, Repr

/-- The memory array (R50): its length MEM_SIZE, which no operation changes, and its non-zero bytes, addresses rising
(`Memory.wf` of Machine/Memory.lean). -/
structure Memory where
  size : Nat
  cells : List Host.Cell
  deriving DecidableEq, Repr

/-- The whole state of the core (R21): the register file `x[0]`..`x[5]`, `x[6]` = `pc`, `x[7]` = `sp`; the status and
pending bytes; the halted flag; the sticky fault record; the memory array; and the budget counter that exists only while
an `execute` call is in progress. -/
structure State where
  r0 : Word
  r1 : Word
  r2 : Word
  r3 : Word
  r4 : Word
  r5 : Word
  /-- x[6], the address of the next byte to fetch (R24). -/
  pc : Word
  /-- x[7], the address of the most recently pushed word (R26). -/
  sp : Word
  /-- N, O, B, D, I, Z, C in bits 0 to 6, bit 7 reserved; all eight bits are plain storage (R27, R28). -/
  status : Byte
  /-- Lines I0..I6 in bits 0 to 6, INM in bit 7 (R31). -/
  pending : Byte
  /-- Set by HALT, cleared by reset (R34). -/
  halted : Bool
  /-- The first fatal failure, cleared by reset only (R36). -/
  fault : Option FaultRecord
  /-- The memory array, of MEM_SIZE bytes (R50). -/
  mem : Memory
  /-- The counter of the call in progress; none between calls, where the spec gives the core no counter (R37, R222;
  log 5). -/
  cycles : Option Int
  deriving DecidableEq, Repr

/-- Why `step` performs no step: the run has ended (R224). No instruction answers with one of these; they are raised by
the loop condition alone. All are safe: the core makes no step there (K16, K17). -/
inductive Fault where
  /-- The core is halted and stays so until reset (R34, R242). -/
  | halted
  /-- A fault is recorded; the core refuses to run until reset (R36, R210). -/
  | faulted (record : FaultRecord)
  /-- The budget of the call in progress is used up (R224). -/
  | budgetExhausted
  deriving DecidableEq, Repr

/-- Refusals. No arm of `exec` is refused. -/
inductive Refusal where
  /-- An instruction that has no meaning yet; raised by `exec` only. Safe: no next state is claimed. -/
  | notModelled (mnemonic : String)
  deriving DecidableEq, Repr

/-- The core right after reset or power-on (R37, R250, R251), with a memory array of `memSize` bytes (R50). Every value is
the spec's; `cycles` is none because no call is in progress ("not state of the core; set by each `execute` call"). -/
def State.resetOf (memSize : Nat) : State where
  r0 := 0
  r1 := 0
  r2 := 0
  r3 := 0
  r4 := 0
  r5 := 0
  pc := Config.resetPc
  sp := Config.initialSp
  status := 0
  pending := 0
  halted := false
  fault := none
  mem := ⟨memSize, []⟩
  cycles := none

/-- The reset state with MEM_SIZE at its default (R6). -/
def State.reset : State := State.resetOf Config.defaultMemSize

end Sys2Proof.Machine
end

