-- ==== Sys2Proof/Machine/Flags.lean ====
section
/-! DEFINITION. The status byte's bits (10_state.md R27) and the one flag computation of the ISA, `ArithFlags`
(41_arithmetic.md R110), with the integer conversions it is written in (00_scope.md R8). -/

namespace Sys2Proof.Machine

/-- The seven flags (R27). Bit 7 is reserved and has no name. -/
inductive Flag where
  | n
  | o
  | b
  | d
  | i
  | z
  | c
  deriving DecidableEq, Repr

/-- The bit positions of R27 (the spec's decision D4; log 13). -/
def Flag.bit : Flag → Nat
  | .n => 0
  | .o => 1
  | .b => 2
  | .d => 3
  | .i => 4
  | .z => 5
  | .c => 6

/-- `v[k] <- x` on a byte (R7). -/
def setBit (v : Byte) (k : Nat) (x : Bool) : Byte :=
  if x then v ||| BitVec.twoPow 8 k else v &&& ~~~(BitVec.twoPow 8 k)

/-- `status.F`. -/
def getFlag (status : Byte) (f : Flag) : Bool := status.getLsbD f.bit

/-- `status.F <- x`. -/
def setFlag (status : Byte) (f : Flag) (x : Bool) : Byte := setBit status f.bit x

/-- `trunc16(r)`: `r mod 2^16` (R8). -/
def trunc16 (r : Int) : Word := BitVec.ofInt 16 r

/-- `sext_16(v)`: `v - 2^16` when bit 15 of `v` is 1, `v` otherwise (R8). -/
def sext16 (v : Word) : Int := if v.getLsbD 15 then (v.toNat : Int) - 65536 else v.toNat

/-- `zext16` of a byte (R8). -/
def zext16 (v : Byte) : Word := v.setWidth 16

/-- The four kinds of result `ArithFlags` tells apart (R110). -/
inductive ArithKind where
  | add
  | sub
  | mul
  | div
  deriving DecidableEq, Repr

/-- `r` and `sr`: the unbounded result on the operands as unsigned integers, and on their two's-complement readings
(R110). Division is unsigned and gives its flags no signed result (R116, R120). -/
def ArithKind.result : ArithKind → Word → Word → Int × Int
  | .add, va, vb => ((va.toNat : Int) + vb.toNat, sext16 va + sext16 vb)
  | .sub, va, vb => ((va.toNat : Int) - vb.toNat, sext16 va - sext16 vb)
  | .mul, va, vb => ((va.toNat : Int) * vb.toNat, sext16 va * sext16 vb)
  | .div, va, vb => ((va.toNat / vb.toNat : Nat), 0)

/-- `C` (R110): above 0xFFFF for add and mul, below 0 for sub, 0 for div. -/
def ArithKind.carry : ArithKind → Int → Bool
  | .add, r => decide (r > 0xFFFF)
  | .sub, r => decide (r < 0)
  | .mul, r => decide (r > 0xFFFF)
  | .div, _ => false

/-- `O` (R110): the signed result does not fit in 16 bits; 0 for div. -/
def ArithKind.overflow : ArithKind → Int → Bool
  | .add, sr => decide (sr < -32768 ∨ sr > 32767)
  | .sub, sr => decide (sr < -32768 ∨ sr > 32767)
  | .mul, sr => decide (sr < -32768 ∨ sr > 32767)
  | .div, _ => false

/-- `ArithFlags(kind, r, sr)` (R110): writes Z, N, C and O and no other bit. -/
def arithFlags (kind : ArithKind) (r sr : Int) (status : Byte) : Byte :=
  let res := trunc16 r
  let status := setFlag status .z (decide (res = 0))
  let status := setFlag status .n (res.getLsbD 15)
  let status := setFlag status .c (kind.carry r)
  setFlag status .o (kind.overflow sr)

end Sys2Proof.Machine
end

