-- ==== Sys2Proof/Syntax.lean ====
section
/-! DEFINITION. The instructions of the DISC core: one constructor per row of spec/opcode_table.json, in its order, with
its operands in encoding order (30_encoding.md R70, R78). Bit 7 of the opcode byte is `m` for the twelve instructions
with an address operand, where it is the form of that operand, and means nothing for the others (R74), so no
constructor carries it. -/

namespace Sys2Proof

inductive Instr where
  /-- NOOP: does nothing (R100). -/
  | noop
  /-- ADD: `reg[a] <- reg[a] + reg[b]` (R113). -/
  | add (a b : Reg)
  /-- SUB: `reg[a] <- reg[a] - reg[b]` (R114). -/
  | sub (a b : Reg)
  /-- MUL: `reg[a] <- reg[a] * reg[b]`, low 16 bits (R115). -/
  | mul (a b : Reg)
  /-- DIV: `reg[a] <- reg[a] / reg[b]`, unsigned (R116). -/
  | div (a b : Reg)
  /-- ADDC: `reg[a] <- reg[a] + W` (R117). -/
  | addc (a : Reg) (w : Word)
  /-- SUBC: `reg[a] <- reg[a] - W` (R118). -/
  | subc (a : Reg) (w : Word)
  /-- MULC: `reg[a] <- reg[a] * W`, low 16 bits (R119). -/
  | mulc (a : Reg) (w : Word)
  /-- DIVC: `reg[a] <- reg[a] / W`, unsigned (R120). -/
  | divc (a : Reg) (w : Word)
  /-- LDR: `reg[a] <- reg[b]` (R150). -/
  | ldr (a b : Reg)
  /-- INC: `reg[a] <- reg[a] + 1` (R121). -/
  | inc (a : Reg)
  /-- DEC: `reg[a] <- reg[a] - 1` (R122). -/
  | dec (a : Reg)
  /-- UXT: `reg[a] <- reg[a] & 0xFF` (R140). -/
  | uxt (a : Reg)
  /-- LSL: logical shift left by `W` bits (R141). -/
  | lsl (a : Reg) (w : Word)
  /-- LSR: logical shift right by `W` bits (R142). -/
  | lsr (a : Reg) (w : Word)
  /-- LDC: `reg[a] <- W` (R151). -/
  | ldc (a : Reg) (w : Word)
  /-- LDM: `reg[a] <- mem16[ea]` (R152). -/
  | ldm (a : Reg) (addr : AddrOperand)
  /-- STRM: `mem16[ea] <- reg[a]` (R153). -/
  | strm (a : Reg) (addr : AddrOperand)
  /-- STCM: `mem16[ea] <- W` (R154). -/
  | stcm (w : Word) (addr : AddrOperand)
  /-- JSR: push `pc`, then `pc <- ea` (R179). -/
  | jsr (addr : AddrOperand)
  /-- RTN: `pc <- pop` (R180). -/
  | rtn
  /-- JRE: jump if `reg[a] = W` (R173). -/
  | jre (a : Reg) (w : Word) (addr : AddrOperand)
  /-- JRN: jump if `reg[a] /= W` (R174). -/
  | jrn (a : Reg) (w : Word) (addr : AddrOperand)
  /-- JRG: jump if `reg[a] > W`, unsigned (R175). -/
  | jrg (a : Reg) (w : Word) (addr : AddrOperand)
  /-- JRGE: jump if `reg[a] >= W`, unsigned (R176). -/
  | jrge (a : Reg) (w : Word) (addr : AddrOperand)
  /-- JRL: jump if `reg[a] < W`, unsigned (R177). -/
  | jrl (a : Reg) (w : Word) (addr : AddrOperand)
  /-- JRLE: jump if `reg[a] <= W`, unsigned (R178). -/
  | jrle (a : Reg) (w : Word) (addr : AddrOperand)
  /-- JMP: `pc <- ea` (R170). -/
  | jmp (addr : AddrOperand)
  /-- JRZ: jump if `reg[a] = 0` (R171). -/
  | jrz (a : Reg) (addr : AddrOperand)
  /-- PUSH: push `reg[a]` (R190). -/
  | push (a : Reg)
  /-- PUSHC: push `W` (R191). -/
  | pushc (w : Word)
  /-- POP: `reg[a] <- pop` (R192). -/
  | pop (a : Reg)
  /-- PUSHS: push the status word (R193). -/
  | pushs
  /-- POPS: pop the status word (R194). -/
  | pops
  /-- SEI: `status.I <- 1` (R195). -/
  | sei
  /-- CLI: `status.I <- 0` (R196). -/
  | cli
  /-- RESET: the reset state, running on (R101). -/
  | reset
  /-- HALT: sets the halted flag (R102). -/
  | halt
  deriving DecidableEq, Repr

/-- The mnemonic of an instruction. -/
def Instr.opcode : Instr → Opcode
  | .noop => .noop
  | .add _ _ => .add
  | .sub _ _ => .sub
  | .mul _ _ => .mul
  | .div _ _ => .div
  | .addc _ _ => .addc
  | .subc _ _ => .subc
  | .mulc _ _ => .mulc
  | .divc _ _ => .divc
  | .ldr _ _ => .ldr
  | .inc _ => .inc
  | .dec _ => .dec
  | .uxt _ => .uxt
  | .lsl _ _ => .lsl
  | .lsr _ _ => .lsr
  | .ldc _ _ => .ldc
  | .ldm _ _ => .ldm
  | .strm _ _ => .strm
  | .stcm _ _ => .stcm
  | .jsr _ => .jsr
  | .rtn => .rtn
  | .jre _ _ _ => .jre
  | .jrn _ _ _ => .jrn
  | .jrg _ _ _ => .jrg
  | .jrge _ _ _ => .jrge
  | .jrl _ _ _ => .jrl
  | .jrle _ _ _ => .jrle
  | .jmp _ => .jmp
  | .jrz _ _ => .jrz
  | .push _ => .push
  | .pushc _ => .pushc
  | .pop _ => .pop
  | .pushs => .pushs
  | .pops => .pops
  | .sei => .sei
  | .cli => .cli
  | .reset => .reset
  | .halt => .halt

/-- The operands of an instruction, in encoding order (R70, R78). -/
def Instr.operands : Instr → Operands
  | .noop => .f0
  | .add a b => .frr a b
  | .sub a b => .frr a b
  | .mul a b => .frr a b
  | .div a b => .frr a b
  | .addc a w => .frw a w
  | .subc a w => .frw a w
  | .mulc a w => .frw a w
  | .divc a w => .frw a w
  | .ldr a b => .frr a b
  | .inc a => .fr a
  | .dec a => .fr a
  | .uxt a => .fr a
  | .lsl a w => .frw a w
  | .lsr a w => .frw a w
  | .ldc a w => .frw a w
  | .ldm a addr => .fra a addr
  | .strm a addr => .fra a addr
  | .stcm w addr => .fwa w addr
  | .jsr addr => .fa addr
  | .rtn => .f0
  | .jre a w addr => .frwa a w addr
  | .jrn a w addr => .frwa a w addr
  | .jrg a w addr => .frwa a w addr
  | .jrge a w addr => .frwa a w addr
  | .jrl a w addr => .frwa a w addr
  | .jrle a w addr => .frwa a w addr
  | .jmp addr => .fa addr
  | .jrz a addr => .fra a addr
  | .push a => .fr a
  | .pushc w => .fw w
  | .pop a => .fr a
  | .pushs => .f0
  | .pops => .f0
  | .sei => .f0
  | .cli => .f0
  | .reset => .f0
  | .halt => .f0

end Sys2Proof
end

