-- ==== Sys2Proof/WellFormed.lean ====
section
/-! DEFINITION. Well-formedness. The operand types admit only legal operands (a register slot 0..7, a 16-bit word:
30_encoding.md R76, R83), so what is left to check is the opcode map, which is a parameter (R80): the map itself
(`OpcodeMap.Valid`), and that it assigns the instruction an opcode (`Instr.WellFormed`). -/

namespace Sys2Proof

/-- R80: the map assigns each instruction a 7-bit opcode. No number selects two mnemonics, and no mnemonic has two
numbers. -/
abbrev OpcodeMap.Valid (map : OpcodeMap) : Prop :=
  (map.map Prod.fst).Nodup ∧ (map.map Prod.snd).Nodup

/-- The instruction has an opcode in the map (R80, R81). -/
abbrev Instr.WellFormed (map : OpcodeMap) (i : Instr) : Prop :=
  i.opcode ∈ map.map Prod.snd

end Sys2Proof
end

