-- ==== Sys2Proof/Decode.lean ====
section
/-! DEFINITION. The byte-order and bit-field helpers, the opcode map, the decoder and the encoder (30_encoding.md).
The decoder reads its bytes by position from a byte source (position 0 is the opcode byte), so that one decoder serves
both the machine, whose source is memory at `pc`, and a list of bytes. -/

namespace Sys2Proof

/-! ### Byte order and bit fields -/

/-- `low | (high << 8)` (R53, R60, R72). -/
def wordOfBytes (lo hi : Byte) : Word := hi ++ lo

/-- `v[7:0]` (R54, R60). -/
def loByte (v : Word) : Byte := v.extractLsb' 0 8

/-- `v[15:8]` (R54, R60). -/
def hiByte (v : Word) : Byte := v.extractLsb' 8 8

/-- `op`, bits 6..0 of the opcode byte (R73). -/
def opField (b : Byte) : BitVec 7 := b.extractLsb' 0 7

/-- `m`, bit 7 of the opcode byte (R73). -/
def modeBit (b : Byte) : Bool := b.getLsbD 7

/-- The opcode byte of an opcode number and an address-mode bit (R73). -/
def opcodeByte (op : BitVec 7) (m : Bool) : Byte := BitVec.ofBool m ++ op

/-! ### Register selectors -/

/-- The selector of a slot: `R0`..`R5` are 0..5, `PC` is 6 and `SP` is 7 (R20). -/
def Reg.selector : Reg → Byte
  | .r0 => 0
  | .r1 => 1
  | .r2 => 2
  | .r3 => 3
  | .r4 => 4
  | .r5 => 5
  | .pc => 6
  | .sp => 7

/-- The slot a selector value names; none above 7 (R20, R75). -/
def Reg.ofSelector : Nat → Option Reg
  | 0 => some .r0
  | 1 => some .r1
  | 2 => some .r2
  | 3 => some .r3
  | 4 => some .r4
  | 5 => some .r5
  | 6 => some .pc
  | 7 => some .sp
  | _ => none

/-- The slot a selector byte names under a policy (R75): a byte above 7 names none under `fault`, and the slot of its low
three bits under `mask`. -/
def SelectorPolicy.select (p : SelectorPolicy) (b : Byte) : Option Reg :=
  match p with
  | .fault => Reg.ofSelector b.toNat
  | .mask => Reg.ofSelector (b &&& 7).toNat

/-! ### The opcode map -/

/-- R80, opcodes 0x00 to 0x08: NOOP and the two-operand arithmetic. -/
def opcodeMapArithmetic : OpcodeMap :=
  [(0x00, .noop), (0x01, .add), (0x02, .sub), (0x03, .mul), (0x04, .div), (0x05, .addc), (0x06, .subc), (0x07, .mulc),
    (0x08, .divc)]

/-- R80, opcodes 0x20 to 0x29: single-register, shift and data movement. -/
def opcodeMapMovement : OpcodeMap :=
  [(0x20, .ldr), (0x21, .inc), (0x22, .dec), (0x23, .uxt), (0x24, .lsl), (0x25, .lsr), (0x26, .ldc), (0x27, .ldm),
    (0x28, .strm), (0x29, .stcm)]

/-- R80, opcodes 0x40 to 0x49: control transfer. -/
def opcodeMapControl : OpcodeMap :=
  [(0x40, .jsr), (0x41, .rtn), (0x42, .jre), (0x43, .jrn), (0x44, .jrg), (0x45, .jrge), (0x46, .jrl), (0x47, .jrle),
    (0x48, .jmp), (0x49, .jrz)]

/-- R80, opcodes 0x60 to 0x66 and 0x7E, 0x7F: stack and status, RESET and HALT. -/
def opcodeMapStack : OpcodeMap :=
  [(0x60, .push), (0x61, .pushc), (0x62, .pop), (0x63, .pushs), (0x64, .pops), (0x65, .sei), (0x66, .cli),
    (0x7E, .reset), (0x7F, .halt)]

/-- OPCODE_MAP's default (R80). The numbers are the spec's choice (D2; log 1). -/
def defaultOpcodeMap : OpcodeMap :=
  List.append opcodeMapArithmetic (List.append opcodeMapMovement (List.append opcodeMapControl opcodeMapStack))

/-- The parameter defaults of R6. -/
def standardConfig : Config where
  memSize := Config.defaultMemSize
  opcodeMap := defaultOpcodeMap
  selectorPolicy := .fault
  irqFrameOrder := .statusThenPc

/-- The mnemonic an opcode number selects, none outside the map (R81). -/
def OpcodeMap.opcodeOf : OpcodeMap → BitVec 7 → Option Opcode
  | [], _ => none
  | (n, o) :: rest, op => if n = op then some o else OpcodeMap.opcodeOf rest op

/-- The opcode number of a mnemonic, none outside the map (R80). -/
def OpcodeMap.numberOf : OpcodeMap → Opcode → Option (BitVec 7)
  | [], _ => none
  | (n, o) :: rest, o' => if o = o' then some n else OpcodeMap.numberOf rest o'

/-! ### Formats and lengths -/

/-- A format together with the instruction its operands make. -/
inductive Shape where
  | f0 (i : Instr)
  | fr (make : Reg → Instr)
  | frr (make : Reg → Reg → Instr)
  | frw (make : Reg → Word → Instr)
  | fw (make : Word → Instr)
  | fa (make : AddrOperand → Instr)
  | fra (make : Reg → AddrOperand → Instr)
  | fwa (make : Word → AddrOperand → Instr)
  | frwa (make : Reg → Word → AddrOperand → Instr)

/-- The format column of R80 and spec/opcode_table.json. -/
def Opcode.shape : Opcode → Shape
  | .noop => .f0 .noop
  | .add => .frr .add
  | .sub => .frr .sub
  | .mul => .frr .mul
  | .div => .frr .div
  | .addc => .frw .addc
  | .subc => .frw .subc
  | .mulc => .frw .mulc
  | .divc => .frw .divc
  | .ldr => .frr .ldr
  | .inc => .fr .inc
  | .dec => .fr .dec
  | .uxt => .fr .uxt
  | .lsl => .frw .lsl
  | .lsr => .frw .lsr
  | .ldc => .frw .ldc
  | .ldm => .fra .ldm
  | .strm => .fra .strm
  | .stcm => .fwa .stcm
  | .jsr => .fa .jsr
  | .rtn => .f0 .rtn
  | .jre => .frwa .jre
  | .jrn => .frwa .jrn
  | .jrg => .frwa .jrg
  | .jrge => .frwa .jrge
  | .jrl => .frwa .jrl
  | .jrle => .frwa .jrle
  | .jmp => .fa .jmp
  | .jrz => .fra .jrz
  | .push => .fr .push
  | .pushc => .fw .pushc
  | .pop => .fr .pop
  | .pushs => .f0 .pushs
  | .pops => .f0 .pops
  | .sei => .f0 .sei
  | .cli => .f0 .cli
  | .reset => .f0 .reset
  | .halt => .f0 .halt

def Shape.format : Shape → Format
  | .f0 _ => .f0
  | .fr _ => .fr
  | .frr _ => .frr
  | .frw _ => .frw
  | .fw _ => .fw
  | .fa _ => .fa
  | .fra _ => .fra
  | .fwa _ => .fwa
  | .frwa _ => .frwa

/-- The format of an opcode (R78, R80). -/
def Opcode.format (o : Opcode) : Format := o.shape.format

/-- Does the format hold an address operand, so that `m` selects its form (R74, R78)? -/
def Format.hasAddr : Format → Bool
  | .f0 | .fr | .frr | .frw | .fw => false
  | .fa | .fra | .fwa | .frwa => true

/-- The lengths of R78 for `m` = 0 (false) and `m` = 1 (true), in bytes. STCM (`fwa`) is 5 long (C4). -/
def Format.length : Format → Bool → Nat
  | .f0, _ => 1
  | .fr, _ => 2
  | .frr, _ => 3
  | .frw, _ => 4
  | .fw, _ => 3
  | .fa, false => 3
  | .fa, true => 2
  | .fra, false => 4
  | .fra, true => 3
  | .fwa, false => 5
  | .fwa, true => 4
  | .frwa, false => 6
  | .frwa, true => 5

/-- The address-mode bit of an address operand (R77). -/
def AddrOperand.mode : AddrOperand → Bool
  | .imm _ => false
  | .ind _ => true

/-- The address-mode bit an encoder emits: the form of the address operand, and 0 where there is none (R74). -/
def Operands.mode : Operands → Bool
  | .f0 => false
  | .fr _ => false
  | .frr _ _ => false
  | .frw _ _ => false
  | .fw _ => false
  | .fa addr => addr.mode
  | .fra _ addr => addr.mode
  | .fwa _ addr => addr.mode
  | .frwa _ _ addr => addr.mode

/-- The length of an instruction in bytes, 1 to 6 (R70, R79). -/
def Instr.length (i : Instr) : Nat := i.opcode.format.length i.operands.mode

/-! ### The decoder -/

/-- Why bytes are not an instruction. `illegalOpcode` and `illegalSelector` are the two causes of `IllegalInstruction`
(R231); `truncated` is a list of bytes that ends inside an instruction, which memory never does (R52). -/
inductive DecodeError where
  | illegalOpcode
  /-- The selector byte at position `k` of the instruction names no slot. -/
  | illegalSelector (k : Nat)
  | truncated
  deriving DecidableEq, Repr

/-- How many bytes the core has fetched when it finds the error (R81, R231): the opcode byte alone, or everything up to
and including the selector byte. -/
def DecodeError.fetched : DecodeError → Nat
  | .illegalOpcode => 1
  | .illegalSelector k => k + 1
  | .truncated => 0

/-- The register selector at position `k` (R75). -/
def selectorAt (p : SelectorPolicy) (src : Nat → Byte) (k : Nat) : Except DecodeError Reg :=
  match p.select (src k) with
  | some r => .ok r
  | none => .error (.illegalSelector k)

/-- The little-endian word at positions `k`, `k + 1` (R72, R76). -/
def wordAt (src : Nat → Byte) (k : Nat) : Word := wordOfBytes (src k) (src (k + 1))

/-- The address operand at position `k`, in the form `m` selects (R77). -/
def addrAt (p : SelectorPolicy) (m : Bool) (src : Nat → Byte) (k : Nat) : Except DecodeError AddrOperand :=
  if m then (selectorAt p src k).map .ind else .ok (.imm (wordAt src k))

/-- The operands at the positions R78 gives them, the first illegal selector in encoding order winning (R233). -/
def Shape.read (p : SelectorPolicy) (m : Bool) (src : Nat → Byte) : Shape → Except DecodeError Instr
  | .f0 i => .ok i
  | .fr make => (selectorAt p src 1).map make
  | .frr make => (selectorAt p src 1).bind fun a => (selectorAt p src 2).map fun b => make a b
  | .frw make => (selectorAt p src 1).map fun a => make a (wordAt src 2)
  | .fw make => .ok (make (wordAt src 1))
  | .fa make => (addrAt p m src 1).map make
  | .fra make => (selectorAt p src 1).bind fun a => (addrAt p m src 2).map fun addr => make a addr
  | .fwa make => (addrAt p m src 3).map fun addr => make (wordAt src 1) addr
  | .frwa make => (selectorAt p src 1).bind fun a => (addrAt p m src 4).map fun addr => make a (wordAt src 2) addr

/-- The instruction whose bytes the source holds from position 0 on (R73, R78, R79, R81). -/
def decodeAt (cfg : Config) (src : Nat → Byte) : Except DecodeError Instr :=
  match cfg.opcodeMap.opcodeOf (opField (src 0)) with
  | some o => o.shape.read cfg.selectorPolicy (modeBit (src 0)) src
  | none => .error .illegalOpcode

/-- The first instruction of a list of bytes and the bytes after it, or why there is none: total on any bytes. -/
def decodeWith (cfg : Config) (bytes : List Byte) : Except DecodeError (Instr × List Byte) :=
  if bytes.isEmpty then .error .truncated
  else
    match decodeAt cfg (fun k => bytes.getD k 0) with
    | .ok i => if i.length ≤ bytes.length then .ok (i, bytes.drop i.length) else .error .truncated
    | .error e => .error e

/-- The decoder under the default parameters. -/
def decode (bytes : List Byte) : Except DecodeError (Instr × List Byte) := decodeWith standardConfig bytes

/-- Byte `k` of an instruction given as a number, bit 0 the least significant bit of its first byte, with every bit from
`nbits` up read as 0 (the numbering of spec/opcode_table.json). -/
def tableByte (nbits w k : Nat) : Byte := BitVec.ofNat 8 ((w % 2 ^ nbits) >>> (8 * k))

/-- What the decoder reads from an instruction given as a number. -/
def decodeTableWord (nbits w : Nat) : Option Instr :=
  match decodeAt standardConfig (tableByte nbits w) with
  | .ok i => some i
  | .error _ => none

/-! ### The encoder -/

def wordBytes (w : Word) : List Byte := [loByte w, hiByte w]

def AddrOperand.bytes : AddrOperand → List Byte
  | .imm a => wordBytes a
  | .ind r => [r.selector]

/-- The operand bytes, in encoding order (R70, R78). -/
def Operands.bytes : Operands → List Byte
  | .f0 => []
  | .fr a => [a.selector]
  | .frr a b => [a.selector, b.selector]
  | .frw a w => a.selector :: wordBytes w
  | .fw w => wordBytes w
  | .fa addr => addr.bytes
  | .fra a addr => a.selector :: addr.bytes
  | .fwa w addr => wordBytes w ++ addr.bytes
  | .frwa a w addr => a.selector :: (wordBytes w ++ addr.bytes)

/-- The bytes of a well-formed instruction under a map: the opcode byte, with bit 7 the address mode or 0, then the
operand bytes (R70, R73, R74). An instruction outside the map has no opcode and is not well-formed. -/
def encodeWith (map : OpcodeMap) (i : Instr) : Option (List Byte) :=
  match map.numberOf i.opcode with
  | some op => some (opcodeByte op i.operands.mode :: i.operands.bytes)
  | none => none

/-- The bytes of an instruction under the default map (every instruction has an opcode in it). -/
def encode (i : Instr) : List Byte := (encodeWith defaultOpcodeMap i).getD []

end Sys2Proof
end

