-- ==== Sys2Proof/Machine/Memory.lean ====
section
/-! DEFINITION. The memory array (20_memory.md): MEM_SIZE bytes, held as a list of (address, byte) pairs, addresses rising, without
the bytes that hold 0x00, which is what every byte holds after reset (R37, R55) and what an unlisted address reads as. -/

namespace Sys2Proof.Machine

/-- Addresses rise strictly. -/
def Memory.sorted : List Host.Cell → Bool
  | [] => true
  | [_] => true
  | c :: d :: rest => decide (c.1 < d.1) && Memory.sorted (d :: rest)

/-- The canonical form: a size MEM_SIZE can take; addresses rise strictly and stay below it, and no entry holds 0x00. -/
def Memory.wf (m : Memory) : Bool :=
  decide (Config.LegalMemSize m.size) && Memory.sorted m.cells && m.cells.all (fun c => decide (c.1 < m.size) && c.2 != 0)

/-- The byte listed at key `k`, 0x00 where none is. -/
def Memory.lookup : List Host.Cell → Nat → Byte
  | [], _ => 0
  | (a, b) :: rest, k => if a = k then b else Memory.lookup rest k

/-- An entry for key `k` before the rest, unless its byte is the 0x00 an unlisted address reads as. -/
def Memory.put (k : Nat) (b : Byte) (rest : List Host.Cell) : List Host.Cell := if b = 0 then rest else (k, b) :: rest

/-- The list with the byte at key `k` made `b`, in canonical form. -/
def Memory.insert : List Host.Cell → Nat → Byte → List Host.Cell
  | [], k, b => Memory.put k b []
  | (a, v) :: rest, k, b =>
    if k < a then Memory.put k b ((a, v) :: rest)
    else if a = k then Memory.put k b rest
    else (a, v) :: Memory.insert rest k b

/-- `mem[a mod MEM_SIZE]` (R52). Every read goes through it. -/
def Memory.readByte (m : Memory) (a : Nat) : Byte := Memory.lookup m.cells (a % m.size)

/-- `mem[a mod MEM_SIZE] <- b` (R52). Every write goes through it. -/
def Memory.writeByte (m : Memory) (a : Nat) (b : Byte) : Memory :=
  { m with cells := Memory.insert m.cells (a % m.size) b }

/-- The value of `MemRead(addr, 2)`: `mem[addr] | (mem[(addr + 1) mod MEM_SIZE] << 8)` (R53). -/
def Memory.readWord (m : Memory) (addr : Word) : Word :=
  wordOfBytes (Memory.readByte m addr.toNat) (Memory.readByte m (addr.toNat + 1))

/-- The memory after `MemWrite(addr, 2, v)`: `v[7:0]` at `addr`, `v[15:8]` at `(addr + 1) mod MEM_SIZE` (R54). -/
def Memory.writeWord (m : Memory) (addr : Word) (v : Word) : Memory :=
  Memory.writeByte (Memory.writeByte m addr.toNat (loByte v)) (addr.toNat + 1) (hiByte v)

/-- The memory with bytes copied to addresses `a`, `a + 1`, … (R256). -/
def Memory.writeBytes (m : Memory) (a : Nat) : List Byte → Memory
  | [] => m
  | b :: rest => Memory.writeBytes (Memory.writeByte m a b) (a + 1) rest

/-- The memory with bytes laid along the instruction stream from `pc` on, the address wrapping as `pc` does (R24). -/
def Memory.writeStream (m : Memory) (pc : Word) : List Byte → Memory
  | [] => m
  | b :: rest => Memory.writeStream (Memory.writeByte m pc.toNat b) (pc + 1) rest

/-- The words at `a` and `b` share no byte of an array of `n` bytes. -/
abbrev WordsApart (n : Nat) (a b : Word) : Prop :=
  ∀ i, i < 2 → ∀ j, j < 2 → (a.toNat + i) % n ≠ (b.toNat + j) % n

/-- The `len` bytes of the stream from `pc` on are `len` different bytes of an array of `n` bytes. -/
abbrev StreamApart (n : Nat) (pc : Word) (len : Nat) : Prop :=
  ∀ j, j < len → ∀ i, i < j → (pc + BitVec.ofNat 16 i).toNat % n ≠ (pc + BitVec.ofNat 16 j).toNat % n

end Sys2Proof.Machine
end

