-- ==== Sys2Proof/Machine/Ops.lean ====
section
/-! DEFINITION. The named operations the meanings are written over: registers, the cycle charge, memory accesses, the
stack, raising a fault, the reset state, and the interrupt controller's acceptance and service. -/

namespace Sys2Proof.Machine

/-- What every meaning answers. -/
abbrev Outcome := Host.Outcome State Fault Refusal

/-! ### Registers -/

/-- `x[i]` (R20, R23). -/
def State.reg (s : State) : Reg → Word
  | .r0 => s.r0
  | .r1 => s.r1
  | .r2 => s.r2
  | .r3 => s.r3
  | .r4 => s.r4
  | .r5 => s.r5
  | .pc => s.pc
  | .sp => s.sp

/-- `x[i] <- v` (R20, R23). -/
def State.setReg (s : State) (i : Reg) (v : Word) : State :=
  match i with
  | .r0 => { s with r0 := v }
  | .r1 => { s with r1 := v }
  | .r2 => { s with r2 := v }
  | .r3 => { s with r3 := v }
  | .r4 => { s with r4 := v }
  | .r5 => { s with r5 := v }
  | .pc => { s with pc := v }
  | .sp => { s with sp := v }

/-- The status byte written whole (R28). -/
def State.setStatus (s : State) (v : Byte) : State := { s with status := v }

/-! ### Cycles and fetch -/

/-- `cycles <- cycles - n`, when a call is in progress (R222, R223). -/
def State.charge (s : State) (n : Nat) : State := { s with cycles := s.cycles.map (· - (n : Int)) }

/-- The state once `n` bytes of the instruction stream have been fetched: `pc` advanced past them and one cycle charged
for each (R24, R71). -/
def State.fetched (s : State) (n : Nat) : State := { s.charge n with pc := s.pc + BitVec.ofNat 16 n }

/-! ### Memory -/

/-- `MemRead(addr, 1)` (R53). -/
def State.memRead8 (s : State) (addr : Word) : Byte × State := (Memory.readByte s.mem addr.toNat, s.charge 1)

/-- `MemRead(addr, 2)` (R53). -/
def State.memRead16 (s : State) (addr : Word) : Word × State := (Memory.readWord s.mem addr, s.charge 2)

/-- `MemWrite(addr, 1, v)` (R54). -/
def State.memWrite8 (s : State) (addr : Word) (v : Byte) : State :=
  { s.charge 1 with mem := Memory.writeByte s.mem addr.toNat v }

/-- `MemWrite(addr, 2, v)` (R54). -/
def State.memWrite16 (s : State) (addr : Word) (v : Word) : State :=
  { s.charge 2 with mem := Memory.writeWord s.mem addr v }

/-! ### The stack -/

/-- `Push16(v)` (R56). -/
def State.push16 (s : State) (v : Word) : State :=
  let spNew := s.sp - 2
  { s.memWrite16 spNew v with sp := spNew }

/-- `Pop16()` (R57). -/
def State.pop16 (s : State) : Word × State :=
  let (v, t) := s.memRead16 s.sp
  (v, { t with sp := s.sp + 2 })

/-! ### Faults -/

/-- The labels of R231 and R232 (K25: labels only). -/
def FaultKind.code : FaultKind → Nat
  | .illegalInstruction => 1
  | .divByZero => 2

/-- `raise E(pc0, b)` from the state before the instruction, `n` bytes fetched (R230): the record holds the address of the
opcode byte and the opcode byte, `pc` stands past the last byte fetched, the fetches are charged, and nothing else is
written. -/
def State.raise (s : State) (kind : FaultKind) (n : Nat) : State :=
  { s.fetched n with fault := some ⟨kind, s.pc, Memory.readByte s.mem s.pc.toNat⟩ }

/-! ### Reset -/

/-- `ResetState()` (R250): every field at its reset value, the array keeping its length; the counter of a running call is
not core state and is left (R252). -/
def State.resetCore (s : State) : State := { State.resetOf s.mem.size with cycles := s.cycles }

/-! ### The interrupt controller -/

/-- The lowest-numbered pending line among 0..6 (R214). -/
def lowestMaskable (pending : Byte) : Option (Fin 8) :=
  [0, 1, 2, 3, 4, 5, 6].find? fun k : Fin 8 => pending.getLsbD k.val

/-- The line accepted at the top of the loop, if any: line 7 whenever it is pending, else the lowest pending maskable line
when `status.I` = 1 (R213, R214). -/
def State.acceptedLine (s : State) : Option (Fin 8) :=
  if s.pending.getLsbD 7 then some 7
  else if getFlag s.status .i then lowestMaskable s.pending
  else none

/-- INTERRUPT_TABLE (R58). -/
def interruptTable : Word := 0xFFF0

/-- The address of line `k`'s vector, `INTERRUPT_TABLE + 2*k` (R58). -/
def vectorAddr (k : Fin 8) : Word := interruptTable + BitVec.ofNat 16 (2 * k.val)

/-- `Service(k)`, taking an interrupt (R215, with the frame order of R216): the status word, as it was, and `pc` are
pushed, `pc` is loaded from the vector, the line's pending bit and `status.I` are cleared. -/
def State.service (s : State) (order : IrqFrameOrder) (k : Fin 8) : State :=
  let framed :=
    match order with
    | .statusThenPc => (s.push16 (zext16 s.status)).push16 s.pc
    | .pcThenStatus => (s.push16 s.pc).push16 (zext16 s.status)
  let (handler, t) := framed.memRead16 (vectorAddr k)
  { t with
    pc := handler
    pending := setBit t.pending k.val false
    status := setFlag t.status .i false }

end Sys2Proof.Machine
end

