-- ==== Sys2Proof/Machine/Operands.lean ====
section
/-! DEFINITION. The values an instruction's operands give once all its bytes are fetched (30_encoding.md R76, R77), and
the operand forms the families share. Each takes the state AFTER the fetch, so that `R6` reads as the address of the next
instruction (10_state.md R25). -/

namespace Sys2Proof.Machine

/-- The effective address of an address operand: the word itself, or the register's value, not a word read from memory
(R77). -/
def State.ea (s : State) : AddrOperand → Word
  | .imm a => a
  | .ind r => s.reg r

/-- The state after the fetch of an instruction of a format and address mode (R78, R79). -/
def State.fetchedAs (s : State) (f : Format) (m : Bool) : State := s.fetched (f.length m)

/-- An arithmetic result in the first-named register, then the flags (R110). -/
def State.arith (s : State) (kind : ArithKind) (a : Reg) (va vb : Word) : State :=
  let (r, sr) := kind.result va vb
  let t := s.setReg a (trunc16 r)
  t.setStatus (arithFlags kind r sr t.status)

/-- The shared sequence of the conditional jumps: `pc <- ea` when the condition holds (R171, R172). -/
def State.jumpIf (s : State) (taken : Bool) (ea : Word) : State := if taken then { s with pc := ea } else s

/-- The value of a logical shift left by a whole 16-bit count (R141). -/
def shiftLeft (v w : Word) : Word := if w.toNat ≥ 16 then 0 else v <<< w.toNat

/-- The value of a logical shift right by a whole 16-bit count (R142). -/
def shiftRight (v w : Word) : Word := if w.toNat ≥ 16 then 0 else v >>> w.toNat

end Sys2Proof.Machine
end

