-- ==== Sys2Proof/Machine/Arithmetic.lean ====
section
/-! DEFINITION. Arithmetic: ADD, SUB, MUL, DIV, ADDC, SUBC, MULC, DIVC, INC, DEC (41_arithmetic.md). Each meaning takes the state before
the instruction is fetched and charges its whole length first, so that it is the instruction's whole step (log 8). -/

namespace Sys2Proof.Machine

/-- ADD (R113). -/
def execAdd (a b : Reg) (s : State) : Outcome :=
  let t := s.fetchedAs .frr false
  .next (t.arith .add a (t.reg a) (t.reg b))

/-- SUB (R114). -/
def execSub (a b : Reg) (s : State) : Outcome :=
  let t := s.fetchedAs .frr false
  .next (t.arith .sub a (t.reg a) (t.reg b))

/-- MUL (R115). -/
def execMul (a b : Reg) (s : State) : Outcome :=
  let t := s.fetchedAs .frr false
  .next (t.arith .mul a (t.reg a) (t.reg b))

/-- DIV (R116, R112): a zero divisor raises `DivByZero` once every operand byte is fetched and before any write (R232). -/
def execDiv (a b : Reg) (s : State) : Outcome :=
  let t := s.fetchedAs .frr false
  if t.reg b = 0 then .next (s.raise .divByZero (Format.frr.length false))
  else .next (t.arith .div a (t.reg a) (t.reg b))

/-- ADDC (R117). -/
def execAddc (a : Reg) (w : Word) (s : State) : Outcome :=
  let t := s.fetchedAs .frw false
  .next (t.arith .add a (t.reg a) w)

/-- SUBC (R118). -/
def execSubc (a : Reg) (w : Word) (s : State) : Outcome :=
  let t := s.fetchedAs .frw false
  .next (t.arith .sub a (t.reg a) w)

/-- MULC (R119). -/
def execMulc (a : Reg) (w : Word) (s : State) : Outcome :=
  let t := s.fetchedAs .frw false
  .next (t.arith .mul a (t.reg a) w)

/-- DIVC (R120, R112). -/
def execDivc (a : Reg) (w : Word) (s : State) : Outcome :=
  let t := s.fetchedAs .frw false
  if w = 0 then .next (s.raise .divByZero (Format.frw.length false))
  else .next (t.arith .div a (t.reg a) w)

/-- INC (R121): add of 1. -/
def execInc (a : Reg) (s : State) : Outcome :=
  let t := s.fetchedAs .fr false
  .next (t.arith .add a (t.reg a) 1)

/-- DEC (R122): sub of 1. -/
def execDec (a : Reg) (s : State) : Outcome :=
  let t := s.fetchedAs .fr false
  .next (t.arith .sub a (t.reg a) 1)

end Sys2Proof.Machine
end

