-- ==== Sys2Proof/Machine/Control.lean ====
section
/-! DEFINITION. Machine control: NOOP, RESET, HALT (40_machine_control.md). Each meaning takes the state before
the instruction is fetched and charges its whole length first, so that it is the instruction's whole step (log 8). -/

namespace Sys2Proof.Machine

/-- NOOP (R100). -/
def execNoop (s : State) : Outcome := .next (s.fetchedAs .f0 false)

/-- RESET (R101): the memory clear is free and the running budget goes on. -/
def execReset (s : State) : Outcome := .next (s.fetchedAs .f0 false).resetCore

/-- HALT (R102): `pc` is left one past the opcode byte. -/
def execHalt (s : State) : Outcome := .next { s.fetchedAs .f0 false with halted := true }

end Sys2Proof.Machine
end

