-- ==== Sys2Proof/Machine/ControlTransfer.lean ====
section
/-! DEFINITION. Control transfer: JMP, JRZ, JRE, JRN, JRG, JRGE, JRL, JRLE, JSR, RTN (44_control_transfer.md). None writes
a flag (D6, R181). Each meaning takes the state before the instruction is fetched and
charges its whole length first, so that it is the instruction's whole step (log 8). -/

namespace Sys2Proof.Machine

/-- JMP (R170). -/
def execJmp (addr : AddrOperand) (s : State) : Outcome :=
  let t := s.fetchedAs .fa addr.mode
  .next { t with pc := t.ea addr }

/-- JRZ (R171): the address operand is fetched and charged on both paths (C5). -/
def execJrz (a : Reg) (addr : AddrOperand) (s : State) : Outcome :=
  let t := s.fetchedAs .fra addr.mode
  .next (t.jumpIf (decide (t.reg a = 0)) (t.ea addr))

/-- JRE (R172, R173): equal. -/
def execJre (a : Reg) (w : Word) (addr : AddrOperand) (s : State) : Outcome :=
  let t := s.fetchedAs .frwa addr.mode
  .next (t.jumpIf (decide (t.reg a = w)) (t.ea addr))

/-- JRN (R172, R174): not equal. -/
def execJrn (a : Reg) (w : Word) (addr : AddrOperand) (s : State) : Outcome :=
  let t := s.fetchedAs .frwa addr.mode
  .next (t.jumpIf (decide (t.reg a ≠ w)) (t.ea addr))

/-- JRG (R172, R175): greater, unsigned. -/
def execJrg (a : Reg) (w : Word) (addr : AddrOperand) (s : State) : Outcome :=
  let t := s.fetchedAs .frwa addr.mode
  .next (t.jumpIf (decide ((t.reg a).toNat > w.toNat)) (t.ea addr))

/-- JRGE (R172, R176): greater or equal, unsigned. -/
def execJrge (a : Reg) (w : Word) (addr : AddrOperand) (s : State) : Outcome :=
  let t := s.fetchedAs .frwa addr.mode
  .next (t.jumpIf (decide ((t.reg a).toNat ≥ w.toNat)) (t.ea addr))

/-- JRL (R172, R177): less, unsigned. -/
def execJrl (a : Reg) (w : Word) (addr : AddrOperand) (s : State) : Outcome :=
  let t := s.fetchedAs .frwa addr.mode
  .next (t.jumpIf (decide ((t.reg a).toNat < w.toNat)) (t.ea addr))

/-- JRLE (R172, R178): less or equal, unsigned. -/
def execJrle (a : Reg) (w : Word) (addr : AddrOperand) (s : State) : Outcome :=
  let t := s.fetchedAs .frwa addr.mode
  .next (t.jumpIf (decide ((t.reg a).toNat ≤ w.toNat)) (t.ea addr))

/-- JSR (R179): the target is fixed before the push, and the pushed `pc` is the address just past the operand. -/
def execJsr (addr : AddrOperand) (s : State) : Outcome :=
  let t := s.fetchedAs .fa addr.mode
  .next { t.push16 t.pc with pc := t.ea addr }

/-- RTN (R180). -/
def execRtn (s : State) : Outcome :=
  let t := s.fetchedAs .f0 false
  let (v, u) := t.pop16
  .next { u with pc := v }

end Sys2Proof.Machine
end

