-- ==== Sys2Proof/Machine/DataMovement.lean ====
section
/-! DEFINITION. Data movement: LDR, LDC, LDM, STRM, STCM (43_data_movement.md). None writes a flag (D6). Each meaning takes the state before
the instruction is fetched and charges its whole length first, so that it is the instruction's whole step (log 8). -/

namespace Sys2Proof.Machine

/-- LDR (R150). -/
def execLdr (a b : Reg) (s : State) : Outcome :=
  let t := s.fetchedAs .frr false
  .next (t.setReg a (t.reg b))

/-- LDC (R151). -/
def execLdc (a : Reg) (w : Word) (s : State) : Outcome :=
  let t := s.fetchedAs .frw false
  .next (t.setReg a w)

/-- LDM (R152). -/
def execLdm (a : Reg) (addr : AddrOperand) (s : State) : Outcome :=
  let t := s.fetchedAs .fra addr.mode
  let (v, u) := t.memRead16 (t.ea addr)
  .next (u.setReg a v)

/-- STRM (R153). -/
def execStrm (a : Reg) (addr : AddrOperand) (s : State) : Outcome :=
  let t := s.fetchedAs .fra addr.mode
  .next (t.memWrite16 (t.ea addr) (t.reg a))

/-- STCM (R154). -/
def execStcm (w : Word) (addr : AddrOperand) (s : State) : Outcome :=
  let t := s.fetchedAs .fwa addr.mode
  .next (t.memWrite16 (t.ea addr) w)

end Sys2Proof.Machine
end

