-- ==== Sys2Proof/Machine/Logical.lean ====
section
/-! DEFINITION. Logical and shift: UXT, LSL, LSR (42_logical.md). None writes a flag (D6). Each meaning takes the state before
the instruction is fetched and charges its whole length first, so that it is the instruction's whole step (log 8). -/

namespace Sys2Proof.Machine

/-- UXT (R140). -/
def execUxt (a : Reg) (s : State) : Outcome :=
  let t := s.fetchedAs .fr false
  .next (t.setReg a (t.reg a &&& 0x00FF))

/-- LSL (R141). -/
def execLsl (a : Reg) (w : Word) (s : State) : Outcome :=
  let t := s.fetchedAs .frw false
  .next (t.setReg a (shiftLeft (t.reg a) w))

/-- LSR (R142). -/
def execLsr (a : Reg) (w : Word) (s : State) : Outcome :=
  let t := s.fetchedAs .frw false
  .next (t.setReg a (shiftRight (t.reg a) w))

end Sys2Proof.Machine
end

