-- ==== Sys2Proof/Machine/Stack.lean ====
section
/-! DEFINITION. Stack and status: PUSH, PUSHC, POP, PUSHS, POPS, SEI, CLI (45_stack_and_status.md). Each meaning takes the state before the instruction is
fetched and charges its whole length first, so that it is the instruction's whole step (log 8). -/

namespace Sys2Proof.Machine

/-- PUSH (R190): the value is read before `sp` changes. -/
def execPush (a : Reg) (s : State) : Outcome :=
  let t := s.fetchedAs .fr false
  .next (t.push16 (t.reg a))

/-- PUSHC (R191). -/
def execPushc (w : Word) (s : State) : Outcome := .next ((s.fetchedAs .fw false).push16 w)

/-- POP (R192): the register write comes last, so that for `R7` the popped value wins over the increment. -/
def execPop (a : Reg) (s : State) : Outcome :=
  let (v, u) := (s.fetchedAs .fr false).pop16
  .next (u.setReg a v)

/-- PUSHS (R193): the word pushed is the status byte zero-extended. -/
def execPushs (s : State) : Outcome :=
  let t := s.fetchedAs .f0 false
  .next (t.push16 (zext16 t.status))

/-- POPS (R194): the low byte of the popped word, whole. -/
def execPops (s : State) : Outcome :=
  let (v, u) := (s.fetchedAs .f0 false).pop16
  .next (u.setStatus (loByte v))

/-- SEI (R195). -/
def execSei (s : State) : Outcome :=
  let t := s.fetchedAs .f0 false
  .next (t.setStatus (setFlag t.status .i true))

/-- CLI (R196). -/
def execCli (s : State) : Outcome :=
  let t := s.fetchedAs .f0 false
  .next (t.setStatus (setFlag t.status .i false))

end Sys2Proof.Machine
end

