-- ==== Sys2Proof/Machine/Dispatch.lean ====
section
/-! DEFINITION. Dispatch (60_exceptions.md R210, "the rule of op in files 40..45"): one arm per constructor of `Instr`. -/

namespace Sys2Proof.Machine

def exec (i : Instr) (s : State) : Host.Outcome State Fault Refusal :=
  match i with
  | .noop => Sys2Proof.Machine.execNoop s
  | .add a b => Sys2Proof.Machine.execAdd a b s
  | .sub a b => Sys2Proof.Machine.execSub a b s
  | .mul a b => Sys2Proof.Machine.execMul a b s
  | .div a b => Sys2Proof.Machine.execDiv a b s
  | .addc a w => Sys2Proof.Machine.execAddc a w s
  | .subc a w => Sys2Proof.Machine.execSubc a w s
  | .mulc a w => Sys2Proof.Machine.execMulc a w s
  | .divc a w => Sys2Proof.Machine.execDivc a w s
  | .ldr a b => Sys2Proof.Machine.execLdr a b s
  | .inc a => Sys2Proof.Machine.execInc a s
  | .dec a => Sys2Proof.Machine.execDec a s
  | .uxt a => Sys2Proof.Machine.execUxt a s
  | .lsl a w => Sys2Proof.Machine.execLsl a w s
  | .lsr a w => Sys2Proof.Machine.execLsr a w s
  | .ldc a w => Sys2Proof.Machine.execLdc a w s
  | .ldm a addr => Sys2Proof.Machine.execLdm a addr s
  | .strm a addr => Sys2Proof.Machine.execStrm a addr s
  | .stcm w addr => Sys2Proof.Machine.execStcm w addr s
  | .jsr addr => Sys2Proof.Machine.execJsr addr s
  | .rtn => Sys2Proof.Machine.execRtn s
  | .jre a w addr => Sys2Proof.Machine.execJre a w addr s
  | .jrn a w addr => Sys2Proof.Machine.execJrn a w addr s
  | .jrg a w addr => Sys2Proof.Machine.execJrg a w addr s
  | .jrge a w addr => Sys2Proof.Machine.execJrge a w addr s
  | .jrl a w addr => Sys2Proof.Machine.execJrl a w addr s
  | .jrle a w addr => Sys2Proof.Machine.execJrle a w addr s
  | .jmp addr => Sys2Proof.Machine.execJmp addr s
  | .jrz a addr => Sys2Proof.Machine.execJrz a addr s
  | .push a => Sys2Proof.Machine.execPush a s
  | .pushc w => Sys2Proof.Machine.execPushc w s
  | .pop a => Sys2Proof.Machine.execPop a s
  | .pushs => Sys2Proof.Machine.execPushs s
  | .pops => Sys2Proof.Machine.execPops s
  | .sei => Sys2Proof.Machine.execSei s
  | .cli => Sys2Proof.Machine.execCli s
  | .reset => Sys2Proof.Machine.execReset s
  | .halt => Sys2Proof.Machine.execHalt s

end Sys2Proof.Machine
end

