-- ==== Sys2Proof/Machine/MainLoop.lean ====
section
/-! DEFINITION. One pass of the main loop (60_exceptions.md R210) under any choice of the parameters. -/

namespace Sys2Proof.Machine

/-- The instruction stream at `pc`, by position: the byte `k` places on, the address wrapping as `pc` does (R24, R52). -/
def State.stream (s : State) (k : Nat) : Byte := Memory.readByte s.mem (s.pc + BitVec.ofNat 16 k).toNat

/-- Is there budget for another step? Always, where no call is in progress: that step is the host's single-step operation
`execute(1)` (R226; log 5). -/
def State.budgetLeft (s : State) : Bool :=
  match s.cycles with
  | some c => decide (0 < c)
  | none => true

/-- Fetch, decode and execute one instruction (R210, parts 2 and 3). -/
def State.runInstr (s : State) (cfg : Config) : Host.Outcome State Fault Refusal :=
  match decodeAt cfg s.stream with
  | .ok i => exec i s
  | .error e => .next (s.raise .illegalInstruction e.fetched)

/-- One pass of the loop: the entry check and the loop condition, then one interrupt service or one instruction (R210). -/
def stepWith (cfg : Config) (s : State) : Host.Outcome State Fault Refusal :=
  match s.fault with
  | some record => .fault (.faulted record)
  | none =>
    if s.halted then .fault .halted
    else if s.budgetLeft then
      match s.acceptedLine with
      | some k => .next (s.service cfg.irqFrameOrder k)
      | none => s.runInstr cfg
    else .fault .budgetExhausted

/-- The state in which the next step fetches: no fault, not halted, budget left, no line accepted. Whatever already
holds is left as it is. -/
def State.readyToFetch (s : State) : State :=
  { s with
    fault := none
    halted := false
    cycles := if s.budgetLeft then s.cycles else none
    pending := if s.acceptedLine = none then s.pending else 0 }

end Sys2Proof.Machine
end

