-- ==== Sys2Proof/Machine/Step.lean ====
section
/-! DEFINITION. The step of the machine, under the default parameters (00_scope.md R6), and the placing of an
instruction where it fetches its next one. -/

namespace Sys2Proof.Machine

/-- One pass of the main loop (R210). -/
def step (s : State) : Host.Outcome State Fault Refusal := stepWith standardConfig s

/-- The state with an instruction's bytes at `pc` and nothing in the way of its fetch; it stands for the host's load and
the start of a call (log 10). -/
def State.withFetchWord (s : State) (nbits w : Nat) : State :=
  { s.readyToFetch with
    mem := Memory.writeStream s.mem s.pc
      [tableByte nbits w 0, tableByte nbits w 1, tableByte nbits w 2, tableByte nbits w 3, tableByte nbits w 4,
        tableByte nbits w 5] }

end Sys2Proof.Machine
end

