-- ==== Sys2Proof/Machine/Fetch.lean ====
section
/-! DEFINITION. The fetch primitives of 30_encoding.md read one at a time from the instruction stream (R71, R72, R75,
R77), and the fetch and decode part of the main loop written with them (R210). The machine's step decodes the same bytes
in one piece (`Machine/MainLoop.lean`); that the two agree is the obligation `StreamFetchAgreesWithDecoder` (log 9). -/

namespace Sys2Proof.Machine

/-- `Fetch8()` (R71). -/
def State.fetch8 (s : State) : Byte × State :=
  let (b, t) := s.memRead8 s.pc
  (b, { t with pc := t.pc + 1 })

/-- `Fetch16()` (R72). -/
def State.fetch16 (s : State) : Word × State :=
  let (lo, t) := s.fetch8
  let (hi, u) := t.fetch8
  (wordOfBytes lo hi, u)

/-- `raise E(pc0, b)` at the point the stream has reached (R230). -/
def State.raiseAt (t : State) (kind : FaultKind) (pc0 : Word) (b : Byte) : State :=
  { t with fault := some ⟨kind, pc0, b⟩ }

/-- `FetchSel()` (R75): the slot, or the state the fault leaves. -/
def State.fetchSel (s : State) (p : SelectorPolicy) (pc0 : Word) (b : Byte) : Except State (Reg × State) :=
  let (sel, t) := s.fetch8
  match p.select sel with
  | some r => .ok (r, t)
  | none => .error (t.raiseAt .illegalInstruction pc0 b)

/-- The address operand of `FetchEA(m)` (R77); its value is `State.ea`. -/
def State.fetchAddr (s : State) (p : SelectorPolicy) (pc0 : Word) (b : Byte) (m : Bool) :
    Except State (AddrOperand × State) :=
  if m then (s.fetchSel p pc0 b).map fun (r, t) => (.ind r, t)
  else
    let (a, t) := s.fetch16
    .ok (.imm a, t)

/-- The operands of a shape, in encoding order (R70, R78). -/
def State.fetchOperands (s : State) (p : SelectorPolicy) (pc0 : Word) (b : Byte) (m : Bool) :
    Shape → Except State (Instr × State)
  | .f0 i => .ok (i, s)
  | .fr make => (s.fetchSel p pc0 b).map fun (a, t) => (make a, t)
  | .frr make =>
    (s.fetchSel p pc0 b).bind fun (a, t) => (t.fetchSel p pc0 b).map fun (c, u) => (make a c, u)
  | .frw make =>
    (s.fetchSel p pc0 b).map fun (a, t) =>
      let (w, u) := t.fetch16
      (make a w, u)
  | .fw make =>
    let (w, t) := s.fetch16
    .ok (make w, t)
  | .fa make => (s.fetchAddr p pc0 b m).map fun (addr, t) => (make addr, t)
  | .fra make =>
    (s.fetchSel p pc0 b).bind fun (a, t) => (t.fetchAddr p pc0 b m).map fun (addr, u) => (make a addr, u)
  | .fwa make =>
    let (w, t) := s.fetch16
    (t.fetchAddr p pc0 b m).map fun (addr, u) => (make w addr, u)
  | .frwa make =>
    (s.fetchSel p pc0 b).bind fun (a, t) =>
      let (w, u) := t.fetch16
      (u.fetchAddr p pc0 b m).map fun (addr, v) => (make a w addr, v)

/-- The fetch and decode part of R210: the instruction and the state after its last byte, or the state an
`IllegalInstruction` leaves. -/
def State.fetchInstr (s : State) (cfg : Config) : Except State (Instr × State) :=
  let pc0 := s.pc
  let (b, t) := s.fetch8
  match cfg.opcodeMap.opcodeOf (opField b) with
  | some o => t.fetchOperands cfg.selectorPolicy pc0 b (modeBit b) o.shape
  | none => .error (t.raiseAt .illegalInstruction pc0 b)

end Sys2Proof.Machine
end

