-- ==== Sys2Proof/Machine/Harness.lean ====
section
/-! DEFINITION. The host interface (60_exceptions.md R210, R235, R240; 70_reset_and_hazards.md R250, R251, R256): the
operations the host performs between `execute` calls, and the `execute` call itself. -/

namespace Sys2Proof.Machine

/-- Why a call ended (R235). -/
inductive StopReason where
  | faulted (record : FaultRecord)
  | halted
  | budgetExhausted
  deriving DecidableEq, Repr

/-- What `execute` returns (R235). `cycles` is the final value of the call's counter, none where the call set none (R210;
log 12). -/
structure RunOutcome where
  reason : StopReason
  cycles : Option Int
  overrun : Bool
  deriving DecidableEq, Repr

/-- `outcome()` (R235): the reason is the fault, else the halt, else the budget; `overrun` is the `CycleOverrun` warning
(R234). -/
def State.outcome (s : State) : RunOutcome where
  reason :=
    match s.fault with
    | some record => .faulted record
    | none => if s.halted then .halted else .budgetExhausted
  cycles := s.cycles
  overrun := s.cycles.any fun c => decide (c < 0)

/-- At most `n` passes of the loop, ending where it ends (R224). Every pass costs at least one cycle, so a budget of `n`
needs no more than `n` passes (obligation `ExecuteEndsWhereTheLoopEnds`; log 11). -/
def runLoop (cfg : Config) : Nat → State → State
  | 0, s => s
  | n + 1, s =>
    match stepWith cfg s with
    | .next t => runLoop cfg n t
    | .fault _ => s
    | .refused _ => s

/-- The state between calls: the counter is local to the call (R222). -/
def State.endCall (s : State) : State := { s with cycles := none }

/-- `execute(budget)` (R210): a faulted core refuses to run; otherwise the counter is set and the loop runs to its end. -/
def executeWith (cfg : Config) (budget : Int) (s : State) : State × RunOutcome :=
  match s.fault with
  | some _ => (s, s.outcome)
  | none =>
    let t := runLoop cfg budget.toNat { s with cycles := some budget }
    (t.endCall, t.outcome)

/-- `execute(budget)` under the default parameters. -/
def execute (budget : Int) (s : State) : State × RunOutcome := executeWith standardConfig budget s

/-- `create()`: a core in the reset state, with an array of MEM_SIZE bytes (R240, R251, R50). -/
def create (cfg : Config) : State := State.resetOf cfg.memSize

/-- The host operations of R240 that change something. -/
inductive HostOp where
  | reset
  | load (image : List Byte)
  | writeMem (a : Word) (b : Byte)
  | writeReg (i : Reg) (v : Word)
  | writeStatus (v : Byte)
  | writePending (v : Byte)
  | execute (budget : Int)
  deriving DecidableEq, Repr

/-- Why a host operation is not performed. Safe: nothing changes. -/
inductive HostRefusal where
  /-- A call is in progress; host operations happen only between calls (R240, K23). -/
  | duringCall
  /-- The image is longer than MEM_SIZE (R256, K24). -/
  | imageTooLong
  deriving DecidableEq, Repr

/-- `load(image)` (R256): image byte `k` to address `k`, every other byte left; an image longer than MEM_SIZE is refused. -/
def State.load (s : State) (image : List Byte) : Except HostRefusal State :=
  if image.length ≤ s.mem.size then .ok { s with mem := Memory.writeBytes s.mem 0 image } else .error .imageTooLong

/-- One host operation between calls, with the outcome of an `execute` (R240, R241). -/
def hostStep (cfg : Config) (op : HostOp) (s : State) : Except HostRefusal (State × Option RunOutcome) :=
  if s.cycles.isSome then .error .duringCall
  else
    match op with
    | .reset => .ok (s.resetCore, none)
    | .load image => (s.load image).map fun t => (t, none)
    | .writeMem a b => .ok ({ s with mem := Memory.writeByte s.mem a.toNat b }, none)
    | .writeReg i v => .ok (s.setReg i v, none)
    | .writeStatus v => .ok (s.setStatus v, none)
    | .writePending v => .ok ({ s with pending := v }, none)
    | .execute budget =>
      let (t, out) := executeWith cfg budget s
      .ok (t, some out)

end Sys2Proof.Machine
end

