-- ==== Sys2Proof/Safety.lean ====
section
/-! DEFINITION. What counts as a sound state and a safe run, in the terms the statements use. -/

namespace Sys2Proof.Machine

/-- The states the core can be in, where no claim is made about register or memory contents: memory is in canonical
form; a fault and a halt never stand together, since each ends the run (R224, R210); and a counter never runs below -6
(R222, R225). -/
structure State.Inv (s : State) : Prop where
  memory : Memory.wf s.mem = true
  oneEnd : s.fault = none ∨ s.halted = false
  counter : ∀ c, s.cycles = some c → -6 ≤ c

/-- The core performs a step: no fault recorded, not halted, budget left (R210). -/
abbrev State.Running (s : State) : Prop := s.fault = none ∧ s.halted = false ∧ s.budgetLeft = true

/-- The step of a running core is an instruction, not an interrupt service (R213). -/
abbrev State.Fetching (s : State) : Prop := s.Running ∧ s.acceptedLine = none

/-- The host's place between two calls (R240). -/
abbrev State.Idle (s : State) : Prop := s.cycles = none

/-- A run of host operations in which none is refused (R240). -/
inductive HostRun (cfg : Config) : State → List HostOp → State → Prop where
  | done (s : State) : HostRun cfg s [] s
  | cons (s t u : State) (op : HostOp) (out : Option RunOutcome) (rest : List HostOp)
      (first : hostStep cfg op s = .ok (t, out)) (more : HostRun cfg t rest u) : HostRun cfg s (op :: rest) u

/-- A safe run: the core has recorded no fault (R230). -/
abbrev State.Safe (s : State) : Prop := s.fault = none

end Sys2Proof.Machine
end

