-- ==== Sys2Proof/Certificates/Slice0/Obligations.lean ====
section
/-! DEFINITION. The statements for the provers. The first part names, in the spec's terms and without the model's own
operations, what the statements talk about; each `Obligations.<Name>` then says one thing about the machine. -/

namespace Sys2Proof.Statements

open Sys2Proof.Machine

/-! ### The vocabulary of the statements -/

/-- `x[r]` as an instruction of `len` bytes reads it: `R6` is the address of the next instruction (R25), every other slot
is what the state holds. -/
def valueAt (s : State) (len : Nat) (r : Reg) : Word := if r = .pc then s.pc + BitVec.ofNat 16 len else s.reg r

/-- The effective address or jump target of an instruction of `len` bytes (R77). -/
def eaAt (s : State) (len : Nat) : AddrOperand → Word
  | .imm a => a
  | .ind r => valueAt s len r

/-- The length of an instruction with an address operand, `long` bytes in immediate form and one less in
register-indirect form (R78). -/
def lenOf (long : Nat) : AddrOperand → Nat
  | .imm _ => long
  | .ind _ => long - 1

/-- `n` cycles are charged to the call in progress, if there is one (R222, R223). -/
def Charged (s t : State) (n : Nat) : Prop := t.cycles = s.cycles.map fun c => c - (n : Int)

/-- The array has its length and every byte of it reads as before. -/
def SameMemory (s t : State) : Prop :=
  t.mem.size = s.mem.size ∧ ∀ a : Nat, Memory.readByte t.mem a = Memory.readByte s.mem a

/-- The addresses `a` and `b` name one byte of the array (R52). -/
abbrev SameByte (s : State) (a b : Nat) : Prop := a % s.mem.size = b % s.mem.size

/-- The word `v` lies at `ea`, low byte first, the second byte at `(ea + 1) mod MEM_SIZE` (R52, R54, R60); every other byte
reads as before, and the array has its length. -/
def StoresWord (s t : State) (ea v : Word) : Prop :=
  t.mem.size = s.mem.size ∧
  ∀ a : Nat,
    Memory.readByte t.mem a =
      if SameByte s a ea.toNat then BitVec.ofNat 8 v.toNat
      else if SameByte s a (ea.toNat + 1) then BitVec.ofNat 8 (v.toNat / 256)
      else Memory.readByte s.mem a

/-- The little-endian word memory holds at `ea` (R53, R60). -/
def wordIn (s : State) (ea : Word) : Word :=
  BitVec.ofNat 16 ((Memory.readByte s.mem ea.toNat).toNat + 256 * (Memory.readByte s.mem (ea.toNat + 1)).toNat)

/-- The pending byte, the halted flag and the fault record are untouched. -/
def SameControl (s t : State) : Prop := t.pending = s.pending ∧ t.halted = s.halted ∧ t.fault = s.fault

/-- Everything but memory, of an instruction that takes `s` to `t`: the register file is `regs`, the status byte is
`status`, `cost` cycles are charged, and the pending byte, halted flag and fault record are untouched. -/
structure Effect (s t : State) (cost : Nat) (regs : Reg → Word) (status : Byte) : Prop where
  regs : ∀ q, t.reg q = regs q
  status : t.status = status
  control : SameControl s t
  cycles : Charged s t cost

/-- An arithmetic instruction of `len` bytes that writes `res` to slot `a` and the four flags of R110, at the bit
positions of R27, and nothing else. -/
structure ArithEffect (s t : State) (len : Nat) (a : Reg) (res : Nat) (carry overflow : Prop) : Prop where
  regs : ∀ q, t.reg q = if q = a then BitVec.ofNat 16 res else valueAt s len q
  negative : t.status.getLsbD 0 = true ↔ 32768 ≤ res
  overflow : t.status.getLsbD 1 = true ↔ overflow
  zero : t.status.getLsbD 5 = true ↔ res = 0
  carry : t.status.getLsbD 6 = true ↔ carry
  otherBits : ∀ k, k = 2 ∨ k = 3 ∨ k = 4 ∨ k = 7 → t.status.getLsbD k = s.status.getLsbD k
  memory : SameMemory s t
  control : SameControl s t
  cycles : Charged s t len

/-- A signed result outside the 16-bit range (R110). -/
def Overflows (sr : Int) : Prop := sr < -32768 ∨ 32767 < sr

/-- R111, row add. -/
def AddEffect (s t : State) (len : Nat) (a : Reg) (va vb : Word) : Prop :=
  ArithEffect s t len a ((va.toNat + vb.toNat) % 65536) (65535 < va.toNat + vb.toNat) (Overflows (va.toInt + vb.toInt))

/-- R111, row sub. -/
def SubEffect (s t : State) (len : Nat) (a : Reg) (va vb : Word) : Prop :=
  ArithEffect s t len a ((65536 + va.toNat - vb.toNat) % 65536) (va.toNat < vb.toNat)
    (Overflows (va.toInt - vb.toInt))

/-- R111, row mul. -/
def MulEffect (s t : State) (len : Nat) (a : Reg) (va vb : Word) : Prop :=
  ArithEffect s t len a ((va.toNat * vb.toNat) % 65536) (65535 < va.toNat * vb.toNat) (Overflows (va.toInt * vb.toInt))

/-- R111, row div with a non-zero divisor. -/
def DivEffect (s t : State) (len : Nat) (a : Reg) (va vb : Word) : Prop :=
  ArithEffect s t len a (va.toNat / vb.toNat) False False

/-- The state a fault leaves after `n` bytes fetched (R230): the record, `pc` and the charge, nothing else. -/
structure Raised (s t : State) (kind : FaultKind) (n : Nat) : Prop where
  record : t.fault = some ⟨kind, s.pc, Memory.readByte s.mem s.pc.toNat⟩
  regs : ∀ q, t.reg q = valueAt s n q
  status : t.status = s.status
  pending : t.pending = s.pending
  halted : t.halted = s.halted
  memory : SameMemory s t
  cycles : Charged s t n

/-- An opcode byte of opcode number `op`, with either value of bit 7 (R73). -/
def OpcodeByte (op : Nat) (b : Byte) : Prop := b.toNat = op ∨ b.toNat = op + 128

/-- The positions of the register-selector bytes of a format, in encoding order (R78). -/
def selectorPositions : Format → Bool → List Nat
  | .f0, _ => []
  | .fr, _ => [1]
  | .frr, _ => [1, 2]
  | .frw, _ => [1]
  | .fw, _ => []
  | .fa, false => []
  | .fa, true => [1]
  | .fra, false => [1]
  | .fra, true => [1, 2]
  | .fwa, false => []
  | .fwa, true => [3]
  | .frwa, false => [1]
  | .frwa, true => [1, 4]

/-- The data bytes an instruction reads or writes (R270, column "data bytes"). -/
def dataBytes : Opcode → Nat
  | .ldm | .strm | .stcm | .jsr | .rtn | .push | .pushc | .pop | .pushs | .pops => 2
  | .noop | .add | .sub | .mul | .div | .addc | .subc | .mulc | .divc | .ldr | .inc | .dec | .uxt | .lsl | .lsr | .ldc
  | .jre | .jrn | .jrg | .jrge | .jrl | .jrle | .jmp | .jrz | .sei | .cli | .reset | .halt => 0

/-- The instruction divides by zero in this state (R112). -/
def DividesByZero (s : State) : Instr → Prop
  | .div _ b => valueAt s 3 b = 0
  | .divc _ w => w = 0
  | _ => False

/-- The address operand an instruction holds, if any (R77, R78). -/
def addrOperand (i : Instr) : Option AddrOperand :=
  match i.operands with
  | .f0 | .fr _ | .frr _ _ | .frw _ _ | .fw _ => none
  | .fa addr | .fra _ addr | .fwa _ addr | .frwa _ _ addr => some addr

/-- `n` steps in a row. -/
def steps (n : Nat) (s : State) : Host.Outcome State Fault Refusal := Host.Core.run Sys2Proof.core n s

/-- The state with another status byte. -/
def withStatus (s : State) (v : Byte) : State := { s with status := v }

end Sys2Proof.Statements

open Sys2Proof Sys2Proof.Machine Sys2Proof.Statements

/-! ### Encoding -/

/-- For every valid opcode map, either selector policy and every instruction with an opcode in the map, decoding the
instruction's bytes, whatever follows them, gives the instruction back with the bytes that follow; under the default map
this holds of every instruction. (Spec sections 30_encoding.md 1 to 4.) -/
def Obligations.DecodeOfEncodeIsIdentity : Prop :=
  (∀ (cfg : Config) (i : Instr) (rest : List Byte), cfg.opcodeMap.Valid → i.WellFormed cfg.opcodeMap →
    ∃ bytes, encodeWith cfg.opcodeMap i = some bytes ∧ bytes.length = i.length ∧
      decodeWith cfg (bytes ++ rest) = .ok (i, rest)) ∧
  ∀ (i : Instr) (rest : List Byte), decode (encode i ++ rest) = .ok (i, rest)

/-- The other direction: bytes that decode under the default parameters are the encoding of what they decode to, up to
bit 7 of the opcode byte where the instruction has no address operand (R74), followed by the rest. -/
def Obligations.EncodeOfDecodeIsTheBytes : Prop :=
  ∀ (bytes rest : List Byte) (i : Instr), decode bytes = .ok (i, rest) →
    ∃ (b e : Byte) (tail : List Byte), bytes = b :: tail ∧ encode i ++ rest = e :: tail ∧ opField b = opField e ∧
      (i.opcode.format.hasAddr = true → b = e)

/-- Bit 7 of the opcode byte matters for exactly the mnemonics with an address operand, which are the twelve R74 lists:
for these, bytes that decode with the bit clear hold an immediate address, bytes that decode with it set a register, and
the two never decode to one instruction; for the others both values of the bit decode alike. (R74, R77, under every map
and either selector policy.) -/
def Obligations.ModeBitIgnoredWithoutAddressOperand : Prop :=
  (∀ o : Opcode, o.format.hasAddr = true ↔
    o ∈ [.ldm, .strm, .stcm, .jmp, .jrz, .jsr, .jre, .jrn, .jrg, .jrge, .jrl, .jrle]) ∧
  ∀ (cfg : Config) (b c : Byte) (tail : List Byte) (o : Opcode), opField b = opField c →
    cfg.opcodeMap.opcodeOf (opField b) = some o →
    (o.format.hasAddr = false → decodeWith cfg (b :: tail) = decodeWith cfg (c :: tail)) ∧
    (o.format.hasAddr = true → ∀ i rest, decodeWith cfg (b :: tail) = .ok (i, rest) →
      (modeBit b = false → ∃ a, addrOperand i = some (.imm a)) ∧ (modeBit b = true → ∃ r, addrOperand i = some (.ind r)) ∧
      (modeBit b ≠ modeBit c → ∀ rest', decodeWith cfg (c :: tail) ≠ .ok (i, rest')))

/-- R81 under the default map: an opcode byte in one of the four illegal ranges, with either value of bit 7, raises
`IllegalInstruction` after the one byte, and an opcode byte outside them is an instruction's. The map is the spec's
decision D2. -/
def Obligations.IllegalOpcodesRaiseAfterOneByte : Prop :=
  ∀ s : State, s.Fetching →
    let op := (s.stream 0).toNat % 128
    ((9 ≤ op ∧ op ≤ 31) ∨ (42 ≤ op ∧ op ≤ 63) ∨ (74 ≤ op ∧ op ≤ 95) ∨ (103 ≤ op ∧ op ≤ 125) →
      ∃ t, step s = .next t ∧ Raised s t .illegalInstruction 1) ∧
    ((op ≤ 8) ∨ (32 ≤ op ∧ op ≤ 41) ∨ (64 ≤ op ∧ op ≤ 73) ∨ (96 ≤ op ∧ op ≤ 102) ∨ (126 ≤ op) →
      ∃ o, defaultOpcodeMap.opcodeOf (opField (s.stream 0)) = some o)

/-- Selectors are checked in encoding order (R75, R78, R233; decisions D3 and D19): the first selector byte above 7, at
position `k`, raises `IllegalInstruction` after `k + 1` bytes; where there is none the instruction runs. -/
def Obligations.FirstIllegalSelectorRaises : Prop :=
  ∀ (s : State) (o : Opcode), s.Fetching → defaultOpcodeMap.opcodeOf (opField (s.stream 0)) = some o →
    let ks := selectorPositions o.format (modeBit (s.stream 0))
    (∀ k, ks.find? (fun j => decide (7 < (s.stream j).toNat)) = some k →
      ∃ t, step s = .next t ∧ Raised s t .illegalInstruction (k + 1)) ∧
    ((∀ j ∈ ks, (s.stream j).toNat ≤ 7) → ∃ i : Instr, i.opcode = o ∧ step s = exec i s)

/-- Words written out from R78 and R80, one per format and family, decode to the instructions they stand for. The opcode
numbers are the default map, the spec's decision D2 (log 1). -/
def Obligations.SpecimenBytesDecode : Prop :=
  decode [0x00] = .ok (.noop, []) ∧ decode [0xFF] = .ok (.halt, []) ∧
  decode [0x01, 0x01, 0x02] = .ok (.add .r1 .r2, []) ∧ decode [0x08, 0x00, 0x10, 0x00] = .ok (.divc .r0 0x0010, []) ∧
  decode [0x21, 0x00] = .ok (.inc .r0, []) ∧ decode [0x24, 0x01, 0x04, 0x00] = .ok (.lsl .r1 0x0004, []) ∧
  decode [0xA7, 0x01, 0x02] = .ok (.ldm .r1 (.ind .r2), []) ∧
  decode [0x29, 0xAA, 0x00, 0x00, 0x02] = .ok (.stcm 0x00AA (.imm 0x0200), []) ∧
  decode [0x43, 0x00, 0x10, 0x00, 0x00, 0x00] = .ok (.jrn .r0 0x0010 (.imm 0x0000), []) ∧
  decode [0xC7, 0x01, 0x00, 0x00, 0x02] = .ok (.jrle .r1 0x0000 (.ind .r2), []) ∧
  decode [0x40, 0xA1, 0x00] = .ok (.jsr (.imm 0x00A1), []) ∧ decode [0x61, 0xEF, 0xBE] = .ok (.pushc 0xBEEF, []) ∧
  decode [0x62, 0x07] = .ok (.pop .sp, [])

/-- R73: `op` is the low seven bits of the opcode byte and `m` is its bit 7. -/
def Obligations.OpcodeByteSplitsIntoOpAndMode : Prop :=
  ∀ b : Byte, (opField b).toNat = b.toNat % 128 ∧ (modeBit b = true ↔ 128 ≤ b.toNat) ∧
    opcodeByte (opField b) (modeBit b) = b ∧ ∀ op m, opField (opcodeByte op m) = op ∧ modeBit (opcodeByte op m) = m

/-! ### Fetch -/

/-- R72: `Fetch16` reads the two bytes from `pc` on, low byte first, `pc` two on, wrapping, for two cycles; and `Fetch8`,
which it is made of, reads the byte at `pc`, `pc` one on, for one cycle. Nothing else changes. -/
def Obligations.FetchReadsBytesAndAdvances : Prop :=
  ∀ s : State,
    (s.fetch8.1 = Memory.readByte s.mem s.pc.toNat ∧
      s.fetch8.2 = { s with pc := s.pc + 1, cycles := s.cycles.map fun c => c - 1 }) ∧
    (s.fetch16.1.toNat = (Memory.readByte s.mem s.pc.toNat).toNat + 256 * (Memory.readByte s.mem (s.pc + 1).toNat).toNat ∧
      s.fetch16.2 = { s with pc := s.pc + 2, cycles := s.cycles.map fun c => c - 2 })

/-- Reading the stream one `Fetch8`, `Fetch16`, `FetchSel` and `FetchEA` at a time, as R70 to R78 and R210 write it,
gives, under any parameters, the instruction the decoder gives and the state past its last byte, or the state the
decoder's error raises. -/
def Obligations.StreamFetchAgreesWithDecoder : Prop :=
  ∀ (cfg : Config) (s : State),
    s.fetchInstr cfg =
      match decodeAt cfg s.stream with
      | .ok i => .ok (i, s.fetched i.length)
      | .error e => .error (s.raise .illegalInstruction e.fetched)

/-- The bytes at `pc` run as the instruction they decode to: `step` is `exec` of it at the same state, and `step` adds
nothing around it, since `exec` itself moves past the instruction's bytes and charges them. (R210.) -/
def Obligations.StepRunsTheDecodedInstruction : Prop :=
  ∀ (s : State) (i : Instr) (rest : List Byte), s.Fetching →
    decode [s.stream 0, s.stream 1, s.stream 2, s.stream 3, s.stream 4, s.stream 5] = .ok (i, rest) →
      step s = exec i s

/-- An instruction placed with `withFetchWord` is the one the next step runs, from any state in which its six bytes have
six different bytes of the array to lie in, as they do everywhere when MEM_SIZE is 65536 (the model's own loading
convention, log 10). -/
def Obligations.PlacedWordRunsNext : Prop :=
  (∀ (s : State) (nbits w : Nat) (i : Instr), Memory.wf s.mem = true → StreamApart s.mem.size s.pc 6 →
    decodeTableWord nbits w = some i → step (s.withFetchWord nbits w) = exec i (s.withFetchWord nbits w)) ∧
  ∀ s : State, s.mem.size = 65536 → StreamApart s.mem.size s.pc 6

/-! ### Memory and stack -/

/-- R53: `MemRead(addr, n)` gives the byte, or the little-endian word whose second byte is at `(addr + 1) mod MEM_SIZE`, and
charges `n` cycles; it changes no other state. -/
def Obligations.MemReadIsLittleEndianAndCharges : Prop :=
  ∀ (s : State) (a : Word),
    (s.memRead8 a).1 = Memory.readByte s.mem a.toNat ∧
    (s.memRead8 a).2 = { s with cycles := s.cycles.map fun c => c - 1 } ∧
    (s.memRead16 a).1.toNat =
      (Memory.readByte s.mem a.toNat).toNat + 256 * (Memory.readByte s.mem ((a.toNat + 1) % s.mem.size)).toNat ∧
    (s.memRead16 a).2 = { s with cycles := s.cycles.map fun c => c - 2 }

/-- R54: `MemWrite` stores the low byte at `addr` and, for a word, the high byte at `(addr + 1) mod MEM_SIZE`, charges its
bytes, changes nothing else, and a word written at any address, 0xFFFE and 0xFFFF included, reads back. -/
def Obligations.MemWriteThenReadGivesTheValue : Prop :=
  ∀ (s : State) (a v : Word) (b : Byte), Memory.wf s.mem = true →
    (∀ k : Nat, Memory.readByte (s.memWrite8 a b).mem k = if SameByte s k a.toNat then b else Memory.readByte s.mem k) ∧
    (s.memWrite8 a b).mem.size = s.mem.size ∧
    (s.memWrite8 a b = { s with mem := (s.memWrite8 a b).mem, cycles := s.cycles.map fun c => c - 1 }) ∧
    StoresWord s (s.memWrite16 a v) a v ∧
    (s.memWrite16 a v = { s with mem := (s.memWrite16 a v).mem, cycles := s.cycles.map fun c => c - 2 }) ∧
    ((s.memWrite16 a v).memRead16 a).1 = v

/-- Memories of one size, in canonical form, that read alike at every 16-bit address are the same data. (20_memory.md
section 1; the canonical form is the model's, log 4.) -/
def Obligations.CanonicalMemoriesThatReadAlikeAreEqual : Prop :=
  ∀ m m' : Memory, Memory.wf m = true → Memory.wf m' = true → m.size = m'.size →
    (∀ a : Word, Memory.readByte m a.toNat = Memory.readByte m' a.toNat) → m = m'

/-- `Push16` (R56): `sp` falls by 2, wrapping, the word lies at the new `sp`, 2 cycles are charged, nothing else
changes. -/
def Obligations.PushStoresBelowTheStackTop : Prop :=
  ∀ (s : State) (v : Word), Memory.wf s.mem = true →
    StoresWord s (s.push16 v) (s.sp - 2) v ∧
      Effect s (s.push16 v) 2 (fun q => if q = .sp then s.sp - 2 else s.reg q) s.status

/-- `Pop16` (R57) reads the word at `sp`, raises `sp` by 2, wrapping, and charges 2 cycles; it changes nothing else. -/
def Obligations.PopReadsTheStackTopAndRaisesSp : Prop :=
  ∀ s : State, s.pop16.1 = wordIn s s.sp ∧
    s.pop16.2 = { s with sp := s.sp + 2, cycles := s.cycles.map fun c => c - 2 }

/-- PUSH then POP of one register, nothing in between, gives every register its value back: for `R7` the popped value wins
(D12), and for `R6`, which PUSH reads as the address after itself, control goes back there. (95_test_vectors.md 1.1.) -/
def Obligations.PushThenPopRestoresTheRegister : Prop :=
  ∀ (s : State) (r : Reg), Memory.wf s.mem = true →
    ∃ t u, exec (.push r) s = .next t ∧ exec (.pop r) t = .next u ∧
      ∀ q, u.reg q = if q = .pc then (if r = .pc then s.pc + 2 else s.pc + 4) else s.reg q

/-- JSR then RTN, the stack balanced in between, returns to the address just past the JSR's operand with `sp` as before the
JSR; `t'` is the state at the RTN, with any registers but `sp` and any memory but the return address's two bytes, and the
RTN leaves every register but `pc` and `sp` as `t'` holds it. (95_test_vectors.md 1.1; R179, R180.) -/
def Obligations.ReturnGoesPastTheCall : Prop :=
  ∀ (s : State) (addr : AddrOperand), Memory.wf s.mem = true →
    ∃ t, exec (.jsr addr) s = .next t ∧ t.pc = eaAt s (lenOf 3 addr) addr ∧
      ∀ t' : State, t'.sp = t.sp → wordIn t' t'.sp = wordIn t t.sp →
        ∃ u, exec .rtn t' = .next u ∧ u.pc = s.pc + BitVec.ofNat 16 (lenOf 3 addr) ∧ u.sp = s.sp ∧
          ∀ q, q ≠ .pc → q ≠ .sp → u.reg q = t'.reg q

/-! ### Machine control -/

/-- R100: a NOOP, opcode byte 0x00 or 0x80, only moves `pc` on by one, wrapping, and charges one cycle; so zeroed memory
executes as a run of NOOPs: `n` zero bytes ahead take `n` steps, one per byte, while the budget lasts and no interrupt is
accepted. -/
def Obligations.NoopOnlyAdvancesAndZerosSlide : Prop :=
  (∀ s : State, exec .noop s = .next { s with pc := s.pc + 1, cycles := s.cycles.map fun c => c - 1 }) ∧
  (∀ s : State, s.Fetching → OpcodeByte 0 (s.stream 0) → step s = exec .noop s) ∧
  ∀ (n : Nat) (s : State), s.Fetching → (∀ k, k < n → s.stream k = 0) → (∀ c, s.cycles = some c → (n : Int) ≤ c) →
    steps n s = .next { s with pc := s.pc + BitVec.ofNat 16 n, cycles := s.cycles.map fun c => c - (n : Int) }

/-- RESET leaves the reset state, whatever the state before it, but for the running budget, which pays the one opcode
byte: registers 0 but `sp` = 0x00A0, status and pending 0, not halted, no fault, every byte of memory 0, the array of the
same length. (R101, R250, R252; the values of status, pending and fault are decisions D17 and D18.) -/
def Obligations.ResetInstructionLeavesTheResetState : Prop :=
  ∀ s : State, ∃ t, exec .reset s = .next t ∧ (∀ q, t.reg q = if q = .sp then 0x00A0 else 0) ∧ t.status = 0 ∧
    t.pending = 0 ∧ t.halted = false ∧ t.fault = none ∧ (∀ a : Nat, Memory.readByte t.mem a = 0) ∧
    t.mem.size = s.mem.size ∧ Charged s t 1

/-- What reset and power-on leave (R37, R50, R250, R251): a core created under any parameters has the reset values, an
array of MEM_SIZE bytes, all 0, and no call in progress; with the default MEM_SIZE, 65536, it is the reset state; and the
host's reset gives that state from any state between calls, the array keeping its length. (Decisions D1, D17, D18, D25.) -/
def Obligations.ResetStateHasTheSpecifiedValues : Prop :=
  (∀ cfg : Config, (∀ q, (create cfg).reg q = if q = .sp then 0x00A0 else 0) ∧ (create cfg).status = 0 ∧
    (create cfg).pending = 0 ∧ (create cfg).halted = false ∧ (create cfg).fault = none ∧
    (create cfg).mem.size = cfg.memSize ∧ (∀ a : Nat, Memory.readByte (create cfg).mem a = 0) ∧
    (create cfg).cycles = none ∧ (cfg.memSize = 65536 → create cfg = State.reset)) ∧
  ∀ (cfg other : Config) (s : State), s.Idle → s.mem.size = cfg.memSize →
    hostStep other .reset s = .ok (create cfg, none)

/-- R102: HALT, opcode byte 0x7F or 0xFF, sets the halted flag and nothing else, `pc` one past it, for one cycle; after it
the core makes no step, whatever is pending, and a later `execute` call changes nothing and reports `Halted`. -/
def Obligations.HaltStopsTheCore : Prop :=
  (∀ s : State,
    exec .halt s = .next { s with pc := s.pc + 1, cycles := s.cycles.map fun c => c - 1, halted := true }) ∧
  (∀ s : State, s.Fetching → OpcodeByte 0x7F (s.stream 0) → step s = exec .halt s) ∧
  (∀ s : State, s.halted = true → s.fault = none → step s = .fault .halted) ∧
  ∀ (cfg : Config) (s : State) (budget : Int), s.Idle → s.halted = true → s.fault = none →
    (executeWith cfg budget s).1 = s ∧ (executeWith cfg budget s).2.reason = .halted

/-! ### Arithmetic -/

/-- `ArithFlags(kind, r, sr)` (R110), for any results `r` and `sr`: Z and N from the low 16 bits of `r`, C from `r`, O from
`sr`, the other four bits kept. Decisions D7 (overflow) and D8 (div), bit positions D4. -/
def Obligations.ArithFlagsFollowTheUnboundedResult : Prop :=
  ∀ (kind : ArithKind) (r sr : Int) (status : Byte),
    let v := arithFlags kind r sr status
    (v.getLsbD 5 = true ↔ r % 65536 = 0) ∧ (v.getLsbD 0 = true ↔ 32768 ≤ r % 65536) ∧
    (v.getLsbD 6 = true ↔ ((kind = .add ∨ kind = .mul) ∧ 65535 < r) ∨ (kind = .sub ∧ r < 0)) ∧
    (v.getLsbD 1 = true ↔ kind ≠ .div ∧ Overflows sr) ∧
    ∀ k, k = 2 ∨ k = 3 ∨ k = 4 ∨ k = 7 → v.getLsbD k = status.getLsbD k

/-- ADD, ADDC and INC (R113, R117, R121, with R110 and R111): sum modulo 2^16 in the first-named register, `R6` read as the
next instruction's address, N, O, Z and C from the unbounded sum, and nothing else but `pc` and the charge. The meaning of
O is decision D7. -/
def Obligations.AddFamilyWritesSumAndFlags : Prop :=
  (∀ (a b : Reg) (s : State), ∃ t, exec (.add a b) s = .next t ∧ AddEffect s t 3 a (valueAt s 3 a) (valueAt s 3 b)) ∧
  (∀ (a : Reg) (w : Word) (s : State), ∃ t, exec (.addc a w) s = .next t ∧ AddEffect s t 4 a (valueAt s 4 a) w) ∧
  ∀ (a : Reg) (s : State), ∃ t, exec (.inc a) s = .next t ∧ AddEffect s t 2 a (valueAt s 2 a) 1

/-- SUB, SUBC and DEC (R114, R118, R122, with R110 and R111): as the add family, the difference, and C the borrow.
Decision D7. -/
def Obligations.SubFamilyWritesDifferenceAndFlags : Prop :=
  (∀ (a b : Reg) (s : State), ∃ t, exec (.sub a b) s = .next t ∧ SubEffect s t 3 a (valueAt s 3 a) (valueAt s 3 b)) ∧
  (∀ (a : Reg) (w : Word) (s : State), ∃ t, exec (.subc a w) s = .next t ∧ SubEffect s t 4 a (valueAt s 4 a) w) ∧
  ∀ (a : Reg) (s : State), ∃ t, exec (.dec a) s = .next t ∧ SubEffect s t 2 a (valueAt s 2 a) 1

/-- MUL and MULC (R115, R119, with R110 and R111): the low 16 bits of the product, C when the unsigned product and O when
the signed product does not fit. Decision D7. -/
def Obligations.MulFamilyWritesProductAndFlags : Prop :=
  (∀ (a b : Reg) (s : State), ∃ t, exec (.mul a b) s = .next t ∧ MulEffect s t 3 a (valueAt s 3 a) (valueAt s 3 b)) ∧
  ∀ (a : Reg) (w : Word) (s : State), ∃ t, exec (.mulc a w) s = .next t ∧ MulEffect s t 4 a (valueAt s 4 a) w

/-- DIV and DIVC with a non-zero divisor (R116, R120, with R110 and R111): the unsigned quotient, Z and N from it, C and O
cleared. Decision D8. -/
def Obligations.DivFamilyWritesQuotientAndFlags : Prop :=
  (∀ (a b : Reg) (s : State), valueAt s 3 b ≠ 0 →
    ∃ t, exec (.div a b) s = .next t ∧ DivEffect s t 3 a (valueAt s 3 a) (valueAt s 3 b)) ∧
  ∀ (a : Reg) (w : Word) (s : State), w ≠ 0 → ∃ t, exec (.divc a w) s = .next t ∧ DivEffect s t 4 a (valueAt s 4 a) w

/-- DIV and DIVC with a zero divisor raise `DivByZero` once every operand byte is fetched (R112, R232): the record, `pc` at
the next instruction, the fetches charged, no register, flag, pending bit or memory byte written, and the next step
refuses to run. What the record holds and that it sticks are decision D18. -/
def Obligations.ZeroDivisorRaisesAndStops : Prop :=
  (∀ (a b : Reg) (s : State), valueAt s 3 b = 0 →
    ∃ t, exec (.div a b) s = .next t ∧ Raised s t .divByZero 3 ∧ ∃ r, t.fault = some r ∧ step t = .fault (.faulted r)) ∧
  ∀ (a : Reg) (s : State),
    ∃ t, exec (.divc a 0) s = .next t ∧ Raised s t .divByZero 4 ∧ ∃ r, t.fault = some r ∧ step t = .fault (.faulted r)

/-! ### Logical and shift -/

/-- UXT (R140): the register modulo 256, no flag (decision D6), nothing else. -/
def Obligations.UxtKeepsTheLowByte : Prop :=
  ∀ (a : Reg) (s : State), ∃ t, exec (.uxt a) s = .next t ∧ SameMemory s t ∧
    Effect s t 2 (fun q => if q = a then BitVec.ofNat 16 ((valueAt s 2 a).toNat % 256) else valueAt s 2 q) s.status

/-- LSL and LSR (R141, R142): the value times, or divided by, 2 to the whole 16-bit count, so 0 for any count of 16 or more
(decision D9); no flag (decision D6), nothing else. -/
def Obligations.ShiftsUseTheWholeCount : Prop :=
  ∀ (a : Reg) (w : Word) (s : State),
    (∃ t, exec (.lsl a w) s = .next t ∧ SameMemory s t ∧
      Effect s t 4
        (fun q => if q = a then BitVec.ofNat 16 ((valueAt s 4 a).toNat * 2 ^ w.toNat % 65536) else valueAt s 4 q)
        s.status) ∧
    ∃ t, exec (.lsr a w) s = .next t ∧ SameMemory s t ∧
      Effect s t 4 (fun q => if q = a then BitVec.ofNat 16 ((valueAt s 4 a).toNat / 2 ^ w.toNat) else valueAt s 4 q)
        s.status

/-! ### Data movement -/

/-- LDR and LDC (R150, R151): the source value or the word in the destination, a jump where that is `R6`, the stack
pointer where it is `R7`; no flag (decision D6), nothing else. -/
def Obligations.RegisterLoadsCopyTheValue : Prop :=
  (∀ (a b : Reg) (s : State), ∃ t, exec (.ldr a b) s = .next t ∧ SameMemory s t ∧
    Effect s t 3 (fun q => if q = a then valueAt s 3 b else valueAt s 3 q) s.status) ∧
  ∀ (a : Reg) (w : Word) (s : State), ∃ t, exec (.ldc a w) s = .next t ∧ SameMemory s t ∧
    Effect s t 4 (fun q => if q = a then w else valueAt s 4 q) s.status

/-- LDM (R152): the little-endian word at the effective address, any address, in the destination, for 6 or 5 cycles; no
flag (decision D6), nothing else. -/
def Obligations.LdmLoadsTheWordAtTheAddress : Prop :=
  ∀ (a : Reg) (addr : AddrOperand) (s : State),
    let len := lenOf 4 addr
    ∃ t, exec (.ldm a addr) s = .next t ∧ SameMemory s t ∧
      Effect s t (len + 2) (fun q => if q = a then wordIn s (eaAt s len addr) else valueAt s len q) s.status

/-- STRM and STCM (R153, R154): the register or the word at the effective address, low byte first and wrapping, for 6 or 5
and 7 or 6 cycles; no register but `pc`, no flag (decision D6), no other byte. -/
def Obligations.StoresWriteOneWord : Prop :=
  (∀ (a : Reg) (addr : AddrOperand) (s : State), Memory.wf s.mem = true →
    let len := lenOf 4 addr
    ∃ t, exec (.strm a addr) s = .next t ∧ StoresWord s t (eaAt s len addr) (valueAt s len a) ∧
      Effect s t (len + 2) (valueAt s len) s.status) ∧
  ∀ (w : Word) (addr : AddrOperand) (s : State), Memory.wf s.mem = true →
    let len := lenOf 5 addr
    ∃ t, exec (.stcm w addr) s = .next t ∧ StoresWord s t (eaAt s len addr) w ∧
      Effect s t (len + 2) (valueAt s len) s.status

/-! ### Control transfer -/

/-- JMP (R170): `pc` becomes the word or the register's value, for 3 or 2 cycles; nothing else. -/
def Obligations.JmpGoesToTheEffectiveAddress : Prop :=
  ∀ (addr : AddrOperand) (s : State),
    let len := lenOf 3 addr
    ∃ t, exec (.jmp addr) s = .next t ∧ SameMemory s t ∧
      Effect s t len (fun q => if q = .pc then eaAt s len addr else s.reg q) s.status

/-- JRZ (R171): `pc` becomes the target when the register is 0 and the next instruction's address otherwise, at the same
cost (the uniform rule, decision D20); nothing else. -/
def Obligations.JrzJumpsWhenTheRegisterIsZero : Prop :=
  ∀ (a : Reg) (addr : AddrOperand) (s : State),
    let len := lenOf 4 addr
    ∃ t, exec (.jrz a addr) s = .next t ∧ SameMemory s t ∧
      Effect s t len
        (fun q => if q = .pc then (if valueAt s len a = 0 then eaAt s len addr else s.pc + BitVec.ofNat 16 len) else s.reg q)
        s.status

/-- The six compare-and-jump instructions (R172 to R178): unsigned comparison of the register with the word (decision D10),
`pc` the target when it holds and the next instruction's address otherwise, at the same cost; nothing else. -/
def Obligations.CompareJumpsFollowUnsignedOrder : Prop :=
  ∀ (a : Reg) (w : Word) (addr : AddrOperand) (s : State),
    let len := lenOf 6 addr
    let v := (valueAt s len a).toNat
    let goes (i : Instr) (taken : Bool) : Prop :=
      ∃ t, exec i s = .next t ∧ SameMemory s t ∧
        Effect s t len
          (fun q => if q = .pc then (if taken then eaAt s len addr else s.pc + BitVec.ofNat 16 len) else s.reg q) s.status
    goes (.jre a w addr) (v == w.toNat) ∧ goes (.jrn a w addr) (v != w.toNat) ∧
    goes (.jrg a w addr) (decide (w.toNat < v)) ∧ goes (.jrge a w addr) (decide (w.toNat ≤ v)) ∧
    goes (.jrl a w addr) (decide (v < w.toNat)) ∧ goes (.jrle a w addr) (decide (v ≤ w.toNat))

/-- JSR (R179): the address just past the operand is pushed and `pc` becomes the target, which a register-indirect form
reads before the push (decision D13); 5 or 4 cycles; nothing else. -/
def Obligations.JsrPushesTheReturnAddress : Prop :=
  ∀ (addr : AddrOperand) (s : State), Memory.wf s.mem = true →
    let len := lenOf 3 addr
    ∃ t, exec (.jsr addr) s = .next t ∧ StoresWord s t (s.sp - 2) (s.pc + BitVec.ofNat 16 len) ∧
      Effect s t (len + 2)
        (fun q => if q = .pc then eaAt s len addr else if q = .sp then s.sp - 2 else s.reg q) s.status

/-- RTN (R180), opcode byte 0x41 or 0xC1, pops `pc` and changes nothing else but `sp`, up by 2, for 3 cycles; the status byte
is not restored. -/
def Obligations.RtnPopsThePc : Prop :=
  (∀ s : State, ∃ t, exec .rtn s = .next t ∧ SameMemory s t ∧
    Effect s t 3 (fun q => if q = .pc then wordIn s s.sp else if q = .sp then s.sp + 2 else s.reg q) s.status) ∧
  ∀ s : State, s.Fetching → OpcodeByte 0x41 (s.stream 0) → step s = exec .rtn s

/-! ### Stack and status -/

/-- PUSH (R190) and PUSHS (R193): the register's value, read before `sp` changes (decision D12), or the status byte
zero-extended (decision D5), at the lowered `sp`; 4 and 3 cycles; nothing else. -/
def Obligations.PushAndPushsStoreTheirWord : Prop :=
  (∀ (a : Reg) (s : State), Memory.wf s.mem = true →
    ∃ t, exec (.push a) s = .next t ∧ StoresWord s t (s.sp - 2) (valueAt s 2 a) ∧
      Effect s t 4 (fun q => if q = .sp then s.sp - 2 else valueAt s 2 q) s.status) ∧
  ∀ s : State, Memory.wf s.mem = true →
    ∃ t, exec .pushs s = .next t ∧ StoresWord s t (s.sp - 2) (BitVec.ofNat 16 s.status.toNat) ∧
      Effect s t 3 (fun q => if q = .sp then s.sp - 2 else valueAt s 1 q) s.status

/-- R191: PUSHC, opcode byte 0x61 or 0xE1 and a little-endian word, lowers `sp` by 2 and stores the word there, `pc` three
on, for 5 cycles; no flag, no fault, nothing else. -/
def Obligations.PushcStoresTheWord : Prop :=
  (∀ (w : Word) (s : State), Memory.wf s.mem = true →
    ∃ t, exec (.pushc w) s = .next t ∧ StoresWord s t (s.sp - 2) w ∧
      Effect s t 5 (fun q => if q = .sp then s.sp - 2 else valueAt s 3 q) s.status) ∧
  ∀ s : State, s.Fetching → OpcodeByte 0x61 (s.stream 0) →
    step s = exec (.pushc (BitVec.ofNat 16 ((s.stream 1).toNat + 256 * (s.stream 2).toNat))) s

/-- POP (R192): the word at `sp` in the register and `sp` up by 2, the popped word winning for `R7` (decision D12) and a
jump for `R6`; 4 cycles; nothing else. -/
def Obligations.PopLoadsTheRegister : Prop :=
  ∀ (a : Reg) (s : State), ∃ t, exec (.pop a) s = .next t ∧ SameMemory s t ∧
    Effect s t 4 (fun q => if q = a then wordIn s s.sp else if q = .sp then s.sp + 2 else valueAt s 2 q) s.status

/-- POPS (R194): all eight status bits from the low byte of the popped word, the high byte ignored (decision D5), `sp` up
by 2, 3 cycles; nothing else. -/
def Obligations.PopsLoadsTheWholeStatusByte : Prop :=
  ∀ s : State, ∃ t, exec .pops s = .next t ∧ SameMemory s t ∧
    Effect s t 3 (fun q => if q = .sp then s.sp + 2 else valueAt s 1 q) (Memory.readByte s.mem s.sp.toNat)

/-- SEI (R195) and CLI (R196): bit 4 of the status byte set or cleared, its other bits kept, 1 cycle; nothing else. The bit
position is decision D4. -/
def Obligations.SeiAndCliWriteOnlyTheEnableBit : Prop :=
  ∀ s : State,
    (∃ t, exec .sei s = .next t ∧ SameMemory s t ∧ Effect s t 1 (valueAt s 1) (s.status ||| 0x10)) ∧
    ∃ t, exec .cli s = .next t ∧ SameMemory s t ∧ Effect s t 1 (valueAt s 1) (s.status &&& 0xEF)

/-! ### Cycles -/

/-- Every instruction completes from every state, and costs its length plus its data bytes, or, dividing by zero, its
length alone (R223, R270). -/
def Obligations.EveryInstructionChargesTheBytesItTouches : Prop :=
  ∀ (i : Instr) (s : State), ∃ t, exec i s = .next t ∧
    (¬ DividesByZero s i → Charged s t (i.length + dataBytes i.opcode)) ∧ (DividesByZero s i → Charged s t i.length)

/-! ### Interrupts -/

/-- Acceptance (R213), under either frame order: a running core services line 7 whenever it is pending; otherwise a
pending line among 0..6 when `status.I` = 1; otherwise it fetches, and a maskable line that is pending stays pending
whatever instruction but RESET runs. That RESET clears the pending byte (R101) is decision D17 (log 13); the frame order is
the parameter of D15 (log 3). -/
def Obligations.AcceptanceFollowsPendingAndEnable : Prop :=
  ∀ (cfg : Config) (s : State), s.Running →
    (s.pending.getLsbD 7 = true → stepWith cfg s = .next (s.service cfg.irqFrameOrder 7)) ∧
    (s.pending.getLsbD 7 = false → s.status.getLsbD 4 = true → (∃ k, k < 7 ∧ s.pending.getLsbD k = true) →
      ∃ k : Fin 8, k.val < 7 ∧ s.pending.getLsbD k.val = true ∧ stepWith cfg s = .next (s.service cfg.irqFrameOrder k)) ∧
    (s.pending.getLsbD 7 = false → (s.status.getLsbD 4 = true → ∀ k, k < 7 → s.pending.getLsbD k = false) →
      s.Fetching ∧ ∀ t, stepWith cfg s = .next t → t.pending = s.pending ∨ decodeAt cfg s.stream = .ok .reset)

/-- R214: INM before every maskable line, and among these the lowest-numbered. The step services that one line and leaves
the other pending bits as they are; after it no line is accepted, so that, while the budget lasts, the handler's first
instruction is fetched next. -/
def Obligations.LowestLineFirstAndOneServiceAtATime : Prop :=
  (∀ (s : State) (k : Fin 8), s.acceptedLine = some k ↔
    s.pending.getLsbD k.val = true ∧ (k = 7 ∨ (s.status.getLsbD 4 = true ∧ s.pending.getLsbD 7 = false ∧
      ∀ j, j < k.val → s.pending.getLsbD j = false))) ∧
  ∀ (cfg : Config) (s : State) (k : Fin 8), s.Running → s.acceptedLine = some k →
    let t := s.service cfg.irqFrameOrder k
    stepWith cfg s = .next t ∧ (∀ j, t.pending.getLsbD j = if j = k.val then false else s.pending.getLsbD j) ∧
      t.acceptedLine = none ∧ (t.budgetLeft = true → t.Fetching)

/-- `Service(k)` (R215, R216, R217), under either frame order: the status word, as it was before I is cleared (D16), and
`pc` on the stack, `sp` down by 4, `pc` from the vector at 0xFFF0 + 2k as memory stands after the pushes, the line's
pending bit and I cleared, 6 cycles, and nothing else. Where the two words share no byte of the array, which is everywhere
when MEM_SIZE is 65536, both lie on the stack afterwards. Decisions D1, D5, D14, D15, D16. -/
def Obligations.ServiceSavesTheFrameAndVectors : Prop :=
  ∀ (s : State) (k : Fin 8) (order : IrqFrameOrder), Memory.wf s.mem = true →
    let t := s.service order k
    let statusWord : Word := BitVec.ofNat 16 s.status.toNat
    let upper := if order = .statusThenPc then statusWord else s.pc
    let lower := if order = .statusThenPc then s.pc else statusWord
    (∃ u : State, StoresWord s u (s.sp - 2) upper ∧ StoresWord u t (s.sp - 4) lower) ∧
    wordIn t (s.sp - 4) = lower ∧ (WordsApart s.mem.size (s.sp - 4) (s.sp - 2) → wordIn t (s.sp - 2) = upper) ∧
    (s.mem.size = 65536 → WordsApart s.mem.size (s.sp - 4) (s.sp - 2)) ∧
    t.pc = wordIn t (0xFFF0 + BitVec.ofNat 16 (2 * k.val)) ∧ t.sp = s.sp - 4 ∧
    (∀ q, q ≠ .pc → q ≠ .sp → t.reg q = s.reg q) ∧
    (∀ j, t.pending.getLsbD j = if j = k.val then false else s.pending.getLsbD j) ∧
    (∀ j, t.status.getLsbD j = if j = 4 then false else s.status.getLsbD j) ∧
    t.halted = s.halted ∧ t.fault = s.fault ∧ Charged s t 6

/-- The return sequences of R218. After a service with the default order, `POP Rx; POPS; JMP [Rx]` (`Rx` neither `R6` nor
`R7`) gives back `pc`, `sp`, the whole status byte and every register but `Rx`; with the other order, `POPS; RTN` gives
back every register and the status byte. The two words of the frame share no byte of the array, as they never do when
MEM_SIZE is 65536 (D1). -/
def Obligations.ReturnSequencesResumeTheProgram : Prop :=
  (∀ s : State, s.mem.size = 65536 → WordsApart s.mem.size (s.sp - 4) (s.sp - 2)) ∧
  ∀ (s : State) (k : Fin 8), Memory.wf s.mem = true → WordsApart s.mem.size (s.sp - 4) (s.sp - 2) →
    (∀ x : Reg, x ≠ .pc → x ≠ .sp →
      ∃ a b c, exec (.pop x) (s.service .statusThenPc k) = .next a ∧ exec .pops a = .next b ∧
        exec (.jmp (.ind x)) b = .next c ∧ c.pc = s.pc ∧ c.sp = s.sp ∧ c.status = s.status ∧
        ∀ q, q ≠ x → c.reg q = s.reg q) ∧
    ∃ a b, exec .pops (s.service .pcThenStatus k) = .next a ∧ exec .rtn a = .next b ∧ b.status = s.status ∧
      ∀ q, b.reg q = s.reg q

/-- The pending byte changes only by a service, which clears the serviced line's bit and no other, by RESET, which clears
it whole, and by the host's write, reset and `execute`, whose steps set no bit (R32, R241; decision D32, and for RESET and
reset D17). -/
def Obligations.PendingChangesOnlyByServiceResetAndHost : Prop :=
  (∀ (i : Instr) (s t : State), exec i s = .next t → t.pending = if i = .reset then 0 else s.pending) ∧
  (∀ (cfg : Config) (s t : State), stepWith cfg s = .next t →
    t.pending = s.pending ∨
    (∃ k : Fin 8, s.acceptedLine = some k ∧
      ∀ j, t.pending.getLsbD j = if j = k.val then false else s.pending.getLsbD j) ∨
    (s.acceptedLine = none ∧ decodeAt cfg s.stream = .ok .reset ∧ t.pending = 0)) ∧
  (∀ (cfg : Config) (budget : Int) (s : State) (j : Nat),
    (executeWith cfg budget s).1.pending.getLsbD j = true → s.pending.getLsbD j = true) ∧
  ∀ (cfg : Config) (op : HostOp) (s t : State) (out : Option RunOutcome), hostStep cfg op s = .ok (t, out) →
    (∀ v, op = .writePending v → t.pending = v) ∧ (op = .reset → t.pending = 0) ∧
    ((∀ v, op ≠ .writePending v) → op ≠ .reset → (∀ b, op ≠ .execute b) → t.pending = s.pending)

/-- Enabling has no shadow (R262; decision D33): after an SEI, or a POPS that loads a word with bit 4 set, with a maskable
line pending, the very next step is a service, before any fetch. -/
def Obligations.EnablingInterruptsActsAtTheNextStep : Prop :=
  ∀ (s t : State) (i : Instr), s.Fetching → i = .sei ∨ (i = .pops ∧ (Memory.readByte s.mem s.sp.toNat).getLsbD 4 = true) →
    exec i s = .next t → t.budgetLeft = true → (∃ k, k < 7 ∧ s.pending.getLsbD k = true) →
      ∃ k : Fin 8, s.pending.getLsbD k.val = true ∧ step t = .next (t.service .statusThenPc k)

/-! ### Faults, runs and the host -/

/-- Reset gives a state of the invariant, and so does the creation of a core with any MEM_SIZE the model admits (log 4). -/
def Obligations.InvHoldsAtReset : Prop :=
  State.reset.Inv ∧ ∀ cfg : Config, 2 ≤ cfg.memSize → cfg.memSize ≤ 65536 → (create cfg).Inv

/-- Every step keeps the invariant, from every state that has it, under any parameters: memory stays canonical, a fault and
a halt never stand together, and the counter never runs below -6 (R222). And it keeps the length of the array (R50). -/
def Obligations.StepKeepsInv : Prop :=
  ∀ (cfg : Config) (s t : State), s.Inv → stepWith cfg s = .next t → t.Inv ∧ t.mem.size = s.mem.size

/-- Every run of host operations keeps the invariant and the length of the array, and ends between calls (R50, R240). -/
def Obligations.HostRunsKeepInv : Prop :=
  ∀ (cfg : Config) (s t : State) (ops : List HostOp), s.Inv → s.Idle → HostRun cfg s ops t →
    t.Inv ∧ t.Idle ∧ t.mem.size = s.mem.size

/-- Only reset clears the halted flag and the fault record (R34, R36, R242; decision D18): no step runs while either stands,
and no host operation but reset changes it. -/
def Obligations.OnlyResetClearsHaltAndFault : Prop :=
  (∀ (cfg : Config) (s : State), s.halted = true ∨ s.fault ≠ none → ∃ r, stepWith cfg s = .fault r) ∧
  ∀ (cfg : Config) (op : HostOp) (s t : State) (out : Option RunOutcome), hostStep cfg op s = .ok (t, out) →
    op ≠ .reset → (s.halted = true → t.halted = true) ∧ ∀ r, s.fault = some r → t.fault = some r

/-- No instruction's behaviour depends on N, O, B, D, Z, C or the reserved bit (R29): started with another status byte that
agrees on I, an instruction gives the same registers, pending, halted, fault and cycles, statuses that again agree on I,
and the same memory but, for PUSHS, the one byte that holds the status; and the accepted line is the same. -/
def Obligations.OnlyTheEnableBitSteersTheCore : Prop :=
  ∀ (i : Instr) (s : State) (v : Byte), Memory.wf s.mem = true → v.getLsbD 4 = s.status.getLsbD 4 →
    (withStatus s v).acceptedLine = s.acceptedLine ∧
    ∃ t u, exec i s = .next t ∧ exec i (withStatus s v) = .next u ∧ u.status.getLsbD 4 = t.status.getLsbD 4 ∧
      (∀ q, u.reg q = t.reg q) ∧ u.pending = t.pending ∧ u.halted = t.halted ∧ u.fault = t.fault ∧ u.cycles = t.cycles ∧
      ∀ a : Nat, (i = .pushs → ¬ SameByte s a (s.sp - 2).toNat) → Memory.readByte u.mem a = Memory.readByte t.mem a

/-- An `execute` call ends exactly where the loop of R210 ends: with a fault, halted, or with the counter at 0 or below; the
bound on the number of passes is never what ends it (log 11). -/
def Obligations.ExecuteEndsWhereTheLoopEnds : Prop :=
  ∀ (cfg : Config) (budget : Int) (s : State), s.fault = none →
    let start : State := { s with cycles := some budget }
    let last := runLoop cfg budget.toNat start
    (last.fault ≠ none ∨ last.halted = true ∨ ∃ c, last.cycles = some c ∧ c ≤ 0) ∧
    ∀ n, budget.toNat ≤ n → runLoop cfg n start = last

/-- What a call reports (R224, R225, R234, R235; the report is decision D30, log 13): the final counter, at most the
budget and, for a positive budget, at least -6 (R222); an overrun exactly when it is negative; the reason `Faulted` with
the record exactly when a fault is set, `Halted` exactly when none is and the core is halted, `BudgetExhausted` otherwise;
`Halted` never with an overrun, for a budget of at least 0; and the counter is gone after the call. A call on a core that
is already faulted changes nothing and reports that fault (R210); that it reports no counter is log 12. -/
def Obligations.ExecuteReportsTheCounter : Prop :=
  (∀ (cfg : Config) (budget : Int) (s : State), s.fault = none →
    let r := executeWith cfg budget s
    r.1.cycles = none ∧
    (∀ record, r.2.reason = .faulted record ↔ r.1.fault = some record) ∧
    (r.2.reason = .halted ↔ r.1.fault = none ∧ r.1.halted = true) ∧
    (r.2.reason = .budgetExhausted ↔ r.1.fault = none ∧ r.1.halted = false) ∧
    ∃ c, r.2.cycles = some c ∧ c ≤ budget ∧ (0 < budget → -6 ≤ c) ∧ (r.2.overrun = true ↔ c < 0) ∧
      (0 ≤ budget → r.2.reason = .halted → 0 ≤ c) ∧ (r.2.reason = .budgetExhausted → c ≤ 0)) ∧
  ∀ (cfg : Config) (budget : Int) (s : State) (record : FaultRecord), s.Idle → s.fault = some record →
    executeWith cfg budget s = (s, ⟨.faulted record, none, false⟩)

/-- A budget of 0 or below runs nothing, and a budget of 1 runs exactly one step of a core that is neither halted nor
faulted (R226). -/
def Obligations.BudgetOneIsASingleStep : Prop :=
  (∀ (cfg : Config) (budget : Int) (s : State), s.Idle → s.fault = none → budget ≤ 0 →
    executeWith cfg budget s =
      (s, ⟨if s.halted then .halted else .budgetExhausted, some budget, decide (budget < 0)⟩)) ∧
  ∀ (cfg : Config) (s : State), s.fault = none → s.halted = false →
    ∃ t, stepWith cfg { s with cycles := some 1 } = .next t ∧ executeWith cfg 1 s = (t.endCall, t.outcome)

/-- A run cut by its budget goes on where it stopped (R263): a call that ends with its budget used up and the counter at
`c`, followed by a call with budget `b2`, gives the state and the report of one call with the whole budget, the first
call's overrun counted in. -/
def Obligations.SplittingTheBudgetChangesNothing : Prop :=
  ∀ (cfg : Config) (b1 b2 c : Int) (s : State), s.Idle → 0 ≤ b2 →
    (executeWith cfg b1 s).2.reason = .budgetExhausted → (executeWith cfg b1 s).2.cycles = some c →
      executeWith cfg (b1 - c + b2) s = executeWith cfg b2 (executeWith cfg b1 s).1

/-- `load(image)` (R256; decision D24): image byte `k` at address `k`, every other byte and every other part of the state
left; an image longer than MEM_SIZE bytes is refused. -/
def Obligations.LoadCopiesTheImageToAddressZero : Prop :=
  ∀ (cfg : Config) (s : State) (image : List Byte), s.Idle → Memory.wf s.mem = true →
    (s.mem.size < image.length → hostStep cfg (.load image) s = .error .imageTooLong) ∧
    (image.length ≤ s.mem.size → ∃ t, hostStep cfg (.load image) s = .ok (t, none) ∧
      (∀ a, a < s.mem.size → Memory.readByte t.mem a =
        if a < image.length then image.getD a 0 else Memory.readByte s.mem a) ∧
      t.mem.size = s.mem.size ∧ t = { s with mem := t.mem })
end

