-- ==== Sys2Proof/Laws/Exec.lean ====
section
/-! SUPPORT. What `exec` answers, one equation per instruction, over the shared operations. -/

namespace Sys2Proof.Machine

theorem exec_noop (s : State) : exec .noop s =
      .next (s.fetchedAs .f0 false) := rfl

theorem exec_add (a : Reg) (b : Reg) (s : State) : exec (.add a b) s =
      .next ((s.fetchedAs .frr false).arith .add a ((s.fetchedAs .frr false).reg a) ((s.fetchedAs .frr false).reg b)) := rfl

theorem exec_sub (a : Reg) (b : Reg) (s : State) : exec (.sub a b) s =
      .next ((s.fetchedAs .frr false).arith .sub a ((s.fetchedAs .frr false).reg a) ((s.fetchedAs .frr false).reg b)) := rfl

theorem exec_mul (a : Reg) (b : Reg) (s : State) : exec (.mul a b) s =
      .next ((s.fetchedAs .frr false).arith .mul a ((s.fetchedAs .frr false).reg a) ((s.fetchedAs .frr false).reg b)) := rfl

theorem exec_div (a : Reg) (b : Reg) (s : State) (h : (s.fetchedAs .frr false).reg b ≠ 0) : exec (.div a b) s =
      .next ((s.fetchedAs .frr false).arith .div a ((s.fetchedAs .frr false).reg a) ((s.fetchedAs .frr false).reg b)) := by
  simp only [exec, execDiv, h, if_false]

theorem exec_div_zero (a : Reg) (b : Reg) (s : State) (h : (s.fetchedAs .frr false).reg b = 0) : exec (.div a b) s = .next (s.raise .divByZero 3) := by
  simp only [exec, execDiv, h, if_true, Format.length]

theorem exec_addc (a : Reg) (w : Word) (s : State) : exec (.addc a w) s =
      .next ((s.fetchedAs .frw false).arith .add a ((s.fetchedAs .frw false).reg a) w) := rfl

theorem exec_subc (a : Reg) (w : Word) (s : State) : exec (.subc a w) s =
      .next ((s.fetchedAs .frw false).arith .sub a ((s.fetchedAs .frw false).reg a) w) := rfl

theorem exec_mulc (a : Reg) (w : Word) (s : State) : exec (.mulc a w) s =
      .next ((s.fetchedAs .frw false).arith .mul a ((s.fetchedAs .frw false).reg a) w) := rfl

theorem exec_divc (a : Reg) (w : Word) (s : State) (h : w ≠ 0) : exec (.divc a w) s =
      .next ((s.fetchedAs .frw false).arith .div a ((s.fetchedAs .frw false).reg a) w) := by
  simp only [exec, execDivc, h, if_false]

theorem exec_divc_zero (a : Reg) (w : Word) (s : State) (h : w = 0) : exec (.divc a w) s = .next (s.raise .divByZero 4) := by
  simp only [exec, execDivc, h, if_true, Format.length]

theorem exec_ldr (a : Reg) (b : Reg) (s : State) : exec (.ldr a b) s =
      .next ((s.fetchedAs .frr false).setReg a ((s.fetchedAs .frr false).reg b)) := rfl

theorem exec_inc (a : Reg) (s : State) : exec (.inc a) s =
      .next ((s.fetchedAs .fr false).arith .add a ((s.fetchedAs .fr false).reg a) 1) := rfl

theorem exec_dec (a : Reg) (s : State) : exec (.dec a) s =
      .next ((s.fetchedAs .fr false).arith .sub a ((s.fetchedAs .fr false).reg a) 1) := rfl

theorem exec_uxt (a : Reg) (s : State) : exec (.uxt a) s =
      .next ((s.fetchedAs .fr false).setReg a ((s.fetchedAs .fr false).reg a &&& 0x00FF)) := rfl

theorem exec_lsl (a : Reg) (w : Word) (s : State) : exec (.lsl a w) s =
      .next ((s.fetchedAs .frw false).setReg a (shiftLeft ((s.fetchedAs .frw false).reg a) w)) := rfl

theorem exec_lsr (a : Reg) (w : Word) (s : State) : exec (.lsr a w) s =
      .next ((s.fetchedAs .frw false).setReg a (shiftRight ((s.fetchedAs .frw false).reg a) w)) := rfl

theorem exec_ldc (a : Reg) (w : Word) (s : State) : exec (.ldc a w) s =
      .next ((s.fetchedAs .frw false).setReg a w) := rfl

theorem exec_ldm (a : Reg) (addr : AddrOperand) (s : State) : exec (.ldm a addr) s =
      .next (((s.fetchedAs .fra addr.mode).charge 2).setReg a (Memory.readWord s.mem ((s.fetchedAs .fra addr.mode).ea addr))) := rfl

theorem exec_strm (a : Reg) (addr : AddrOperand) (s : State) : exec (.strm a addr) s =
      .next ((s.fetchedAs .fra addr.mode).memWrite16 ((s.fetchedAs .fra addr.mode).ea addr) ((s.fetchedAs .fra addr.mode).reg a)) := rfl

theorem exec_stcm (w : Word) (addr : AddrOperand) (s : State) : exec (.stcm w addr) s =
      .next ((s.fetchedAs .fwa addr.mode).memWrite16 ((s.fetchedAs .fwa addr.mode).ea addr) w) := rfl

theorem exec_jsr (addr : AddrOperand) (s : State) : exec (.jsr addr) s =
      .next (((s.fetchedAs .fa addr.mode).push16 (s.fetchedAs .fa addr.mode).pc).setReg .pc ((s.fetchedAs .fa addr.mode).ea addr)) := rfl

theorem exec_rtn (s : State) : exec .rtn s =
      .next ((s.fetchedAs .f0 false).pop16.2.setReg .pc (Memory.readWord s.mem s.sp)) := rfl

theorem exec_jre (a : Reg) (w : Word) (addr : AddrOperand) (s : State) : exec (.jre a w addr) s =
      .next ((s.fetchedAs .frwa addr.mode).jumpIf (decide ((s.fetchedAs .frwa addr.mode).reg a = w)) ((s.fetchedAs .frwa addr.mode).ea addr)) := rfl

theorem exec_jrn (a : Reg) (w : Word) (addr : AddrOperand) (s : State) : exec (.jrn a w addr) s =
      .next ((s.fetchedAs .frwa addr.mode).jumpIf (decide ((s.fetchedAs .frwa addr.mode).reg a ≠ w)) ((s.fetchedAs .frwa addr.mode).ea addr)) := rfl

theorem exec_jrg (a : Reg) (w : Word) (addr : AddrOperand) (s : State) : exec (.jrg a w addr) s =
      .next ((s.fetchedAs .frwa addr.mode).jumpIf (decide (((s.fetchedAs .frwa addr.mode).reg a).toNat > w.toNat)) ((s.fetchedAs .frwa addr.mode).ea addr)) := rfl

theorem exec_jrge (a : Reg) (w : Word) (addr : AddrOperand) (s : State) : exec (.jrge a w addr) s =
      .next ((s.fetchedAs .frwa addr.mode).jumpIf (decide (((s.fetchedAs .frwa addr.mode).reg a).toNat ≥ w.toNat)) ((s.fetchedAs .frwa addr.mode).ea addr)) := rfl

theorem exec_jrl (a : Reg) (w : Word) (addr : AddrOperand) (s : State) : exec (.jrl a w addr) s =
      .next ((s.fetchedAs .frwa addr.mode).jumpIf (decide (((s.fetchedAs .frwa addr.mode).reg a).toNat < w.toNat)) ((s.fetchedAs .frwa addr.mode).ea addr)) := rfl

theorem exec_jrle (a : Reg) (w : Word) (addr : AddrOperand) (s : State) : exec (.jrle a w addr) s =
      .next ((s.fetchedAs .frwa addr.mode).jumpIf (decide (((s.fetchedAs .frwa addr.mode).reg a).toNat ≤ w.toNat)) ((s.fetchedAs .frwa addr.mode).ea addr)) := rfl

theorem exec_jmp (addr : AddrOperand) (s : State) : exec (.jmp addr) s =
      .next ((s.fetchedAs .fa addr.mode).setReg .pc ((s.fetchedAs .fa addr.mode).ea addr)) := rfl

theorem exec_jrz (a : Reg) (addr : AddrOperand) (s : State) : exec (.jrz a addr) s =
      .next ((s.fetchedAs .fra addr.mode).jumpIf (decide ((s.fetchedAs .fra addr.mode).reg a = 0)) ((s.fetchedAs .fra addr.mode).ea addr)) := rfl

theorem exec_push (a : Reg) (s : State) : exec (.push a) s =
      .next ((s.fetchedAs .fr false).push16 ((s.fetchedAs .fr false).reg a)) := rfl

theorem exec_pushc (w : Word) (s : State) : exec (.pushc w) s =
      .next ((s.fetchedAs .fw false).push16 w) := rfl

theorem exec_pop (a : Reg) (s : State) : exec (.pop a) s =
      .next ((s.fetchedAs .fr false).pop16.2.setReg a (Memory.readWord s.mem s.sp)) := rfl

theorem exec_pushs (s : State) : exec .pushs s =
      .next ((s.fetchedAs .f0 false).push16 (zext16 s.status)) := rfl

theorem exec_pops (s : State) : exec .pops s =
      .next ((s.fetchedAs .f0 false).pop16.2.setStatus (loByte (Memory.readWord s.mem s.sp))) := rfl

theorem exec_sei (s : State) : exec .sei s =
      .next ((s.fetchedAs .f0 false).setStatus (setFlag s.status .i true)) := rfl

theorem exec_cli (s : State) : exec .cli s =
      .next ((s.fetchedAs .f0 false).setStatus (setFlag s.status .i false)) := rfl

theorem exec_reset (s : State) : exec .reset s =
      .next ((s.fetchedAs .f0 false).resetCore) := rfl

theorem exec_halt (s : State) : exec .halt s =
      .next { s.fetchedAs .f0 false with halted := true } := rfl

/-- No instruction ends in a fault or a refusal: `exec` answers a next state (R211, R230). -/
theorem exec_isNext (i : Instr) (s : State) : ∃ t, exec i s = .next t := by
  cases i with
  | div a b =>
    by_cases h : (s.fetchedAs .frr false).reg b = 0
    · exact ⟨_, exec_div_zero a b s h⟩
    · exact ⟨_, exec_div a b s h⟩
  | divc a w =>
    by_cases h : w = 0
    · exact ⟨_, exec_divc_zero a w s h⟩
    · exact ⟨_, exec_divc a w s h⟩
  | _ => exact ⟨_, rfl⟩

end Sys2Proof.Machine
end

