-- ==== Sys2Proof/Laws/Memory.lean ====
section
/-! SUPPORT. Memory: a read after a write, the canonical form and the length kept by every memory operation, and the byte halves of a
word. -/

namespace Sys2Proof

theorem toNat_wordOfBytes (lo hi : Byte) : (wordOfBytes lo hi).toNat = lo.toNat + 256 * hi.toNat := by
  unfold wordOfBytes
  rw [BitVec.toNat_append, ← Nat.shiftLeft_add_eq_or_of_lt lo.isLt, Nat.shiftLeft_eq]
  omega

theorem toNat_loByte (v : Word) : (loByte v).toNat = v.toNat % 256 := by
  simp [loByte, BitVec.extractLsb'_toNat]

theorem toNat_hiByte (v : Word) : (hiByte v).toNat = v.toNat / 256 := by
  have := v.isLt
  simp only [hiByte, BitVec.extractLsb'_toNat, Nat.shiftRight_eq_div_pow]
  omega

@[simp] theorem loByte_wordOfBytes (lo hi : Byte) : loByte (wordOfBytes lo hi) = lo := by
  have := lo.isLt
  apply BitVec.eq_of_toNat_eq
  rw [toNat_loByte, toNat_wordOfBytes]
  omega

@[simp] theorem hiByte_wordOfBytes (lo hi : Byte) : hiByte (wordOfBytes lo hi) = hi := by
  have := lo.isLt
  have := hi.isLt
  apply BitVec.eq_of_toNat_eq
  rw [toNat_hiByte, toNat_wordOfBytes]
  omega

@[simp] theorem wordOfBytes_loByte_hiByte (v : Word) : wordOfBytes (loByte v) (hiByte v) = v := by
  apply BitVec.eq_of_toNat_eq
  rw [toNat_wordOfBytes, toNat_loByte, toNat_hiByte]
  omega

namespace Machine

/-! ### `put`, `lookup` and `insert` -/

theorem Memory.sorted_cons (c : Host.Cell) (m : List Host.Cell) :
    Memory.sorted (c :: m) = true ↔ (∀ d ∈ m.head?, c.1 < d.1) ∧ Memory.sorted m = true := by
  cases m <;> simp [Memory.sorted]

/-- Below the first key nothing is listed. -/
theorem Memory.lookup_below (m : List Host.Cell) (hs : Memory.sorted m = true) (n : Nat)
    (hm : ∀ d ∈ m.head?, n < d.1) : Memory.lookup m n = 0 := by
  induction m with
  | nil => rfl
  | cons c rest ih =>
    obtain ⟨a, v⟩ := c
    have ha : n < a := hm (a, v) rfl
    have hs' := (Memory.sorted_cons _ _).1 hs
    simp only [Memory.lookup, Nat.ne_of_gt ha, if_false]
    exact ih hs'.2 fun d hd => Nat.lt_trans ha (hs'.1 d hd)

theorem Memory.lookup_put (k j : Nat) (b : Byte) (m : List Host.Cell) (h : Memory.lookup m k = 0) :
    Memory.lookup (Memory.put k b m) j = if j = k then b else Memory.lookup m j := by
  unfold Memory.put
  split
  · rename_i hb
    split
    · rename_i hj; rw [hj, h, hb]
    · rfl
  · simp only [Memory.lookup, eq_comm]

theorem Memory.lookup_insert (m : List Host.Cell) (k j : Nat) (b : Byte) (h : Memory.sorted m = true) :
    Memory.lookup (Memory.insert m k b) j = if j = k then b else Memory.lookup m j := by
  induction m with
  | nil => exact Memory.lookup_put k j b [] rfl
  | cons c rest ih =>
    obtain ⟨a, v⟩ := c
    have h' := (Memory.sorted_cons _ _).1 h
    simp only [Memory.insert]
    split
    · rename_i hk
      exact Memory.lookup_put k j b _ (Memory.lookup_below _ h k fun d hd => by cases hd; exact hk)
    · split
      · rename_i hk
        rw [Memory.lookup_put k j b rest (Memory.lookup_below rest h'.2 k (hk ▸ h'.1))]
        simp only [Memory.lookup, hk]
        split
        · rfl
        · rename_i hj; simp [Ne.symm hj]
      · rename_i hk
        simp only [Memory.lookup, ih h'.2]
        split
        · rename_i haj; subst haj; simp [hk]
        · rfl

theorem Memory.mem_put (k : Nat) (b : Byte) (m : List Host.Cell) (c : Host.Cell) (h : c ∈ Memory.put k b m) :
    c ∈ m ∨ (c = (k, b) ∧ b ≠ 0) := by
  unfold Memory.put at h
  split at h
  · exact .inl h
  · rename_i hb
    rcases List.mem_cons.1 h with h | h
    · exact .inr ⟨h, hb⟩
    · exact .inl h

theorem Memory.mem_insert (m : List Host.Cell) (k : Nat) (b : Byte) (c : Host.Cell) (h : c ∈ Memory.insert m k b) :
    c ∈ m ∨ (c = (k, b) ∧ b ≠ 0) := by
  induction m with
  | nil => exact Memory.mem_put k b [] c h
  | cons d rest ih =>
    obtain ⟨a, v⟩ := d
    simp only [Memory.insert] at h
    split at h
    · exact Memory.mem_put k b _ c h
    · split at h
      · exact (Memory.mem_put k b rest c h).imp_left (List.mem_cons_of_mem _)
      · rcases List.mem_cons.1 h with h | h
        · exact .inl (h ▸ List.mem_cons_self)
        · exact (ih h).imp_left (List.mem_cons_of_mem _)

theorem Memory.sorted_put (k : Nat) (b : Byte) (m : List Host.Cell) (hm : ∀ d ∈ m.head?, k < d.1)
    (h : Memory.sorted m = true) : Memory.sorted (Memory.put k b m) = true := by
  unfold Memory.put
  split
  · exact h
  · exact (Memory.sorted_cons _ _).2 ⟨hm, h⟩

/-- Nothing that goes in above a bound brings a key below it to the front. -/
theorem Memory.head_insert (m : List Host.Cell) (k : Nat) (b : Byte) (n : Nat) (hm : ∀ d ∈ m, n < d.1) (hk : n < k) :
    ∀ d ∈ (Memory.insert m k b).head?, n < d.1 := by
  intro d hd
  rcases Memory.mem_insert m k b d (List.mem_of_mem_head? hd) with h | ⟨rfl, -⟩
  · exact hm d h
  · exact hk

theorem Memory.keys_above (c : Host.Cell) (m : List Host.Cell) (h : Memory.sorted (c :: m) = true) :
    ∀ d ∈ m, c.1 < d.1 := by
  induction m generalizing c with
  | nil => simp
  | cons e rest ih =>
    have h' := (Memory.sorted_cons _ _).1 h
    have he : c.1 < e.1 := h'.1 e rfl
    intro d hd
    rcases List.mem_cons.1 hd with rfl | hd
    · exact he
    · exact Nat.lt_trans he (ih e h'.2 d hd)

theorem Memory.sorted_insert (m : List Host.Cell) (k : Nat) (b : Byte) (h : Memory.sorted m = true) :
    Memory.sorted (Memory.insert m k b) = true := by
  induction m with
  | nil => exact Memory.sorted_put k b [] (by simp) rfl
  | cons c rest ih =>
    obtain ⟨a, v⟩ := c
    have h' := (Memory.sorted_cons _ _).1 h
    simp only [Memory.insert]
    split
    · rename_i hk
      exact Memory.sorted_put k b _ (fun d hd => by cases hd; exact hk) h
    · split
      · rename_i hk
        exact Memory.sorted_put k b rest (hk ▸ h'.1) h'.2
      · exact (Memory.sorted_cons _ _).2
          ⟨Memory.head_insert rest k b a (Memory.keys_above _ _ h) (by omega), ih h'.2⟩

/-! ### The length of the array is fixed -/

@[simp] theorem Memory.writeByte_size (m : Memory) (a : Nat) (b : Byte) : (Memory.writeByte m a b).size = m.size := rfl

@[simp] theorem Memory.writeWord_size (m : Memory) (a v : Word) : (Memory.writeWord m a v).size = m.size := rfl

@[simp] theorem Memory.writeBytes_size (m : Memory) (a : Nat) (bs : List Byte) :
    (Memory.writeBytes m a bs).size = m.size := by
  induction bs generalizing m a with
  | nil => rfl
  | cons b rest ih => exact ih _ _

@[simp] theorem Memory.writeStream_size (m : Memory) (pc : Word) (bs : List Byte) :
    (Memory.writeStream m pc bs).size = m.size := by
  induction bs generalizing m pc with
  | nil => rfl
  | cons b rest ih => exact ih _ _

/-! ### The canonical form -/

theorem Memory.wf_iff (m : Memory) :
    Memory.wf m = true ↔
      Config.LegalMemSize m.size ∧ Memory.sorted m.cells = true ∧ ∀ c ∈ m.cells, c.1 < m.size ∧ c.2 ≠ 0 := by
  simp [Memory.wf, and_assoc]

/-- Zeroed memory of a size MEM_SIZE can take. -/
theorem Memory.wf_zeroed (n : Nat) (h : Config.LegalMemSize n) : Memory.wf ⟨n, []⟩ = true :=
  (Memory.wf_iff _).2 ⟨h, rfl, by simp⟩

theorem Memory.legalSize_of_wf {m : Memory} (h : Memory.wf m = true) : Config.LegalMemSize m.size :=
  ((Memory.wf_iff m).1 h).1

theorem Memory.sorted_of_wf {m : Memory} (h : Memory.wf m = true) : Memory.sorted m.cells = true :=
  ((Memory.wf_iff m).1 h).2.1

theorem Memory.wf_writeByte (m : Memory) (a : Nat) (b : Byte) (h : Memory.wf m = true) :
    Memory.wf (Memory.writeByte m a b) = true := by
  obtain ⟨hn, hs, hc⟩ := (Memory.wf_iff m).1 h
  refine (Memory.wf_iff _).2 ⟨hn, Memory.sorted_insert _ _ b hs, fun c hm => ?_⟩
  rcases Memory.mem_insert _ _ b c hm with hm | ⟨rfl, hb⟩
  · exact hc c hm
  · exact ⟨Nat.mod_lt _ (by have := hn.1; omega), hb⟩

theorem Memory.wf_writeWord (m : Memory) (a v : Word) (h : Memory.wf m = true) :
    Memory.wf (Memory.writeWord m a v) = true :=
  Memory.wf_writeByte _ _ _ (Memory.wf_writeByte _ _ _ h)

theorem Memory.wf_writeBytes (m : Memory) (a : Nat) (bs : List Byte) (h : Memory.wf m = true) :
    Memory.wf (Memory.writeBytes m a bs) = true := by
  induction bs generalizing m a with
  | nil => exact h
  | cons b rest ih => exact ih _ _ (Memory.wf_writeByte m a b h)

theorem Memory.wf_writeStream (m : Memory) (pc : Word) (bs : List Byte) (h : Memory.wf m = true) :
    Memory.wf (Memory.writeStream m pc bs) = true := by
  induction bs generalizing m pc with
  | nil => exact h
  | cons b rest ih => exact ih _ _ (Memory.wf_writeByte m _ b h)

/-! ### Read after write -/

/-- Two addresses name one byte exactly when they agree modulo MEM_SIZE (R52). -/
theorem Memory.readByte_congr (m : Memory) {a k : Nat} (h : a % m.size = k % m.size) :
    Memory.readByte m a = Memory.readByte m k := by
  unfold Memory.readByte
  rw [h]

theorem Memory.readByte_writeByte (m : Memory) (a k : Nat) (b : Byte) (h : Memory.wf m = true) :
    Memory.readByte (Memory.writeByte m a b) k = if k % m.size = a % m.size then b else Memory.readByte m k :=
  Memory.lookup_insert _ _ _ _ (Memory.sorted_of_wf h)

/-- The two bytes of a word are two bytes (C2). -/
theorem succ_mod_ne {n : Nat} (h : 2 ≤ n) (a : Nat) : (a + 1) % n ≠ a % n := by
  intro e
  have hd : n ∣ a + 1 - a := (Nat.modEq_iff_dvd' (Nat.le_succ a)).1 e.symm
  rw [Nat.add_sub_cancel_left] at hd
  have := Nat.le_of_dvd Nat.one_pos hd
  omega

/-- A word store, at any address: the two bytes it writes and no other (R54). -/
theorem Memory.readByte_writeWord (m : Memory) (a v : Word) (k : Nat) (h : Memory.wf m = true) :
    Memory.readByte (Memory.writeWord m a v) k =
      if k % m.size = a.toNat % m.size then loByte v
      else if k % m.size = (a.toNat + 1) % m.size then hiByte v
      else Memory.readByte m k := by
  unfold Memory.writeWord
  rw [Memory.readByte_writeByte _ _ _ _ (Memory.wf_writeByte _ _ _ h), Memory.readByte_writeByte _ _ _ _ h,
    Memory.writeByte_size]
  by_cases h1 : k % m.size = a.toNat % m.size
  · rw [if_pos h1, if_pos h1, if_neg]
    rw [h1]
    exact (succ_mod_ne (Memory.legalSize_of_wf h).1 _).symm
  · rw [if_neg h1, if_neg h1]

@[simp] theorem Memory.loByte_readWord (m : Memory) (a : Word) :
    loByte (Memory.readWord m a) = Memory.readByte m a.toNat := loByte_wordOfBytes _ _

@[simp] theorem Memory.hiByte_readWord (m : Memory) (a : Word) :
    hiByte (Memory.readWord m a) = Memory.readByte m (a.toNat + 1) := hiByte_wordOfBytes _ _

/-- Equal bytes at the two addresses of a word give equal words. -/
theorem Memory.readWord_congr {m m' : Memory} {a : Word}
    (h0 : Memory.readByte m a.toNat = Memory.readByte m' a.toNat)
    (h1 : Memory.readByte m (a.toNat + 1) = Memory.readByte m' (a.toNat + 1)) :
    Memory.readWord m a = Memory.readWord m' a := by
  rw [Memory.readWord, Memory.readWord, h0, h1]

/-- A word written at any address reads back (R54). -/
theorem Memory.readWord_writeWord (m : Memory) (a v : Word) (h : Memory.wf m = true) :
    Memory.readWord (Memory.writeWord m a v) a = v := by
  have e := succ_mod_ne (Memory.legalSize_of_wf h).1 a.toNat
  rw [Memory.readWord, Memory.readByte_writeWord _ _ _ _ h, Memory.readByte_writeWord _ _ _ _ h, if_pos rfl, if_neg e,
    if_pos rfl, wordOfBytes_loByte_hiByte]

/-- A word written leaves every word that shares no byte with it alone. -/
theorem Memory.readWord_writeWord_apart (m : Memory) (a b v : Word) (h : Memory.wf m = true)
    (hab : WordsApart m.size a b) : Memory.readWord (Memory.writeWord m a v) b = Memory.readWord m b := by
  have ne (i j : Nat) (hi : i < 2) (hj : j < 2) : (b.toNat + j) % m.size ≠ (a.toNat + i) % m.size :=
    (hab i hi j hj).symm
  apply Memory.readWord_congr <;> rw [Memory.readByte_writeWord _ _ _ _ h, if_neg, if_neg]
  · exact ne 1 0 (by omega) (by omega)
  · exact ne 0 0 (by omega) (by omega)
  · exact ne 1 1 (by omega) (by omega)
  · exact ne 0 1 (by omega) (by omega)

/-- With the default MEM_SIZE, two words two bytes apart share no byte. -/
theorem wordsApart_default (a : Word) : WordsApart Config.defaultMemSize a (a + 2) := by
  intro i hi j hj
  simp only [Config.defaultMemSize]
  bv_omega

/-- Bytes copied from `a` on read back at their places; every other byte is as it was. -/
theorem Memory.readByte_writeBytes (m : Memory) (a : Nat) (bs : List Byte) (k : Nat) (h : Memory.wf m = true)
    (hlen : a + bs.length ≤ m.size) (hk : k < m.size) :
    Memory.readByte (Memory.writeBytes m a bs) k =
      if a ≤ k ∧ k < a + bs.length then bs.getD (k - a) 0 else Memory.readByte m k := by
  induction bs generalizing m a with
  | nil =>
    have : ¬ (a ≤ k ∧ k < a + ([] : List Byte).length) := by simp
    rw [if_neg this]; rfl
  | cons b rest ih =>
    simp only [List.length_cons] at hlen ⊢
    rw [Memory.writeBytes, ih _ _ (Memory.wf_writeByte _ _ _ h) (by simpa using by omega) (by simpa using hk),
      Memory.readByte_writeByte _ _ _ _ h, Nat.mod_eq_of_lt hk, Nat.mod_eq_of_lt (by omega : a < m.size)]
    by_cases h1 : k = a
    · subst h1
      rw [if_neg (by omega), if_pos rfl, if_pos (by omega)]
      simp
    · by_cases h2 : a ≤ k ∧ k < a + (rest.length + 1)
      · rw [if_pos (by omega), if_pos h2]
        have : k - a = (k - (a + 1)) + 1 := by omega
        rw [this, List.getD_cons_succ]
      · rw [if_neg (by omega), if_neg h1, if_neg h2]

/-- A byte that is none of those laid along the stream is as it was. -/
theorem Memory.readByte_writeStream_other (m : Memory) (pc : Word) (bs : List Byte) (k : Nat) (h : Memory.wf m = true)
    (hk : ∀ j, j < bs.length → k % m.size ≠ (pc + BitVec.ofNat 16 j).toNat % m.size) :
    Memory.readByte (Memory.writeStream m pc bs) k = Memory.readByte m k := by
  induction bs generalizing m pc with
  | nil => rfl
  | cons b rest ih =>
    rw [Memory.writeStream, ih _ _ (Memory.wf_writeByte _ _ _ h), Memory.readByte_writeByte _ _ _ _ h, if_neg]
    · simpa using hk 0 (by simp)
    · intro j hj
      have e : pc + 1 + BitVec.ofNat 16 j = pc + BitVec.ofNat 16 (j + 1) := by
        apply BitVec.eq_of_toNat_eq; simp; omega
      rw [e]
      exact hk (j + 1) (by simpa using hj)

/-- Bytes laid along the stream over as many different bytes of the array read back at their places. -/
theorem Memory.readByte_writeStream (m : Memory) (pc : Word) (bs : List Byte) (k : Nat) (h : Memory.wf m = true)
    (hk : k < bs.length)
    (apart : StreamApart m.size pc bs.length) :
    Memory.readByte (Memory.writeStream m pc bs) (pc + BitVec.ofNat 16 k).toNat = bs.getD k 0 := by
  have shift (pc : Word) (j : Nat) : pc + 1 + BitVec.ofNat 16 j = pc + BitVec.ofNat 16 (j + 1) := by
    apply BitVec.eq_of_toNat_eq; simp; omega
  induction bs generalizing m pc k with
  | nil => simp at hk
  | cons b rest ih =>
    rw [Memory.writeStream]
    cases k with
    | zero =>
      rw [Memory.readByte_writeStream_other _ _ _ _ (Memory.wf_writeByte _ _ _ h), Memory.readByte_writeByte _ _ _ _ h]
      · simp
      · intro j hj
        rw [shift]
        exact apart (j + 1) (by simpa using hj) 0 (by omega)
    | succ k =>
      rw [← shift, ih _ _ _ (Memory.wf_writeByte _ _ _ h) (by simpa using hk)]
      · simp
      · intro j hj i hij
        rw [shift, shift]
        exact apart (j + 1) (by simpa using hj) (i + 1) (by omega)

/-- With the default MEM_SIZE, the bytes of an instruction are as many different bytes wherever it lies. -/
theorem streamApart_default (pc : Word) (len : Nat) (h : len ≤ 65536) : StreamApart Config.defaultMemSize pc len := by
  intro j hj i hij
  simp only [Config.defaultMemSize, BitVec.toNat_add, BitVec.toNat_ofNat]
  omega

end Machine
end Sys2Proof
end

