-- ==== Sys2Proof/Laws/State.lean ====
section
/-! SUPPORT. One lemma per field per state update, and the registers of each update, so that no proof unfolds a record
update. -/

namespace Sys2Proof.Machine

/-! ### Registers as fields -/

@[simp] theorem State.reg_r0 (s : State) : s.reg .r0 = s.r0 := rfl
@[simp] theorem State.reg_r1 (s : State) : s.reg .r1 = s.r1 := rfl
@[simp] theorem State.reg_r2 (s : State) : s.reg .r2 = s.r2 := rfl
@[simp] theorem State.reg_r3 (s : State) : s.reg .r3 = s.r3 := rfl
@[simp] theorem State.reg_r4 (s : State) : s.reg .r4 = s.r4 := rfl
@[simp] theorem State.reg_r5 (s : State) : s.reg .r5 = s.r5 := rfl
@[simp] theorem State.reg_pc (s : State) : s.reg .pc = s.pc := rfl
@[simp] theorem State.reg_sp (s : State) : s.reg .sp = s.sp := rfl

/-! ### `setReg` -/

@[simp] theorem State.reg_setReg (s : State) (i j : Reg) (v : Word) :
    (s.setReg i v).reg j = if j = i then v else s.reg j := by
  cases i <;> cases j <;> rfl

@[simp] theorem State.setReg_status (s : State) (i : Reg) (v : Word) : (s.setReg i v).status = s.status := by cases i <;> rfl

@[simp] theorem State.setReg_pending (s : State) (i : Reg) (v : Word) : (s.setReg i v).pending = s.pending := by cases i <;> rfl

@[simp] theorem State.setReg_halted (s : State) (i : Reg) (v : Word) : (s.setReg i v).halted = s.halted := by cases i <;> rfl

@[simp] theorem State.setReg_fault (s : State) (i : Reg) (v : Word) : (s.setReg i v).fault = s.fault := by cases i <;> rfl

@[simp] theorem State.setReg_mem (s : State) (i : Reg) (v : Word) : (s.setReg i v).mem = s.mem := by cases i <;> rfl

@[simp] theorem State.setReg_cycles (s : State) (i : Reg) (v : Word) : (s.setReg i v).cycles = s.cycles := by cases i <;> rfl

@[simp] theorem State.setReg_pc (s : State) (i : Reg) (v : Word) : (s.setReg i v).pc = if i = .pc then v else s.pc := by
  cases i <;> rfl

@[simp] theorem State.setReg_sp (s : State) (i : Reg) (v : Word) : (s.setReg i v).sp = if i = .sp then v else s.sp := by
  cases i <;> rfl

@[simp] theorem State.setReg_r0 (s : State) (i : Reg) (v : Word) : (s.setReg i v).r0 = if i = .r0 then v else s.r0 := by
  cases i <;> rfl

@[simp] theorem State.setReg_r1 (s : State) (i : Reg) (v : Word) : (s.setReg i v).r1 = if i = .r1 then v else s.r1 := by
  cases i <;> rfl

@[simp] theorem State.setReg_r2 (s : State) (i : Reg) (v : Word) : (s.setReg i v).r2 = if i = .r2 then v else s.r2 := by
  cases i <;> rfl

@[simp] theorem State.setReg_r3 (s : State) (i : Reg) (v : Word) : (s.setReg i v).r3 = if i = .r3 then v else s.r3 := by
  cases i <;> rfl

@[simp] theorem State.setReg_r4 (s : State) (i : Reg) (v : Word) : (s.setReg i v).r4 = if i = .r4 then v else s.r4 := by
  cases i <;> rfl

@[simp] theorem State.setReg_r5 (s : State) (i : Reg) (v : Word) : (s.setReg i v).r5 = if i = .r5 then v else s.r5 := by
  cases i <;> rfl

/-! ### `setStatus` -/

@[simp] theorem State.setStatus_r0 (s : State) (v : Byte) : (s.setStatus v).r0 = s.r0 := rfl
@[simp] theorem State.setStatus_r1 (s : State) (v : Byte) : (s.setStatus v).r1 = s.r1 := rfl
@[simp] theorem State.setStatus_r2 (s : State) (v : Byte) : (s.setStatus v).r2 = s.r2 := rfl
@[simp] theorem State.setStatus_r3 (s : State) (v : Byte) : (s.setStatus v).r3 = s.r3 := rfl
@[simp] theorem State.setStatus_r4 (s : State) (v : Byte) : (s.setStatus v).r4 = s.r4 := rfl
@[simp] theorem State.setStatus_r5 (s : State) (v : Byte) : (s.setStatus v).r5 = s.r5 := rfl
@[simp] theorem State.setStatus_pc (s : State) (v : Byte) : (s.setStatus v).pc = s.pc := rfl
@[simp] theorem State.setStatus_sp (s : State) (v : Byte) : (s.setStatus v).sp = s.sp := rfl
@[simp] theorem State.setStatus_status (s : State) (v : Byte) : (s.setStatus v).status = v := rfl
@[simp] theorem State.setStatus_pending (s : State) (v : Byte) : (s.setStatus v).pending = s.pending := rfl
@[simp] theorem State.setStatus_halted (s : State) (v : Byte) : (s.setStatus v).halted = s.halted := rfl
@[simp] theorem State.setStatus_fault (s : State) (v : Byte) : (s.setStatus v).fault = s.fault := rfl
@[simp] theorem State.setStatus_mem (s : State) (v : Byte) : (s.setStatus v).mem = s.mem := rfl
@[simp] theorem State.setStatus_cycles (s : State) (v : Byte) : (s.setStatus v).cycles = s.cycles := rfl
@[simp] theorem State.setStatus_reg (s : State) (v : Byte) (r : Reg) : (s.setStatus v).reg r = s.reg r := by cases r <;> rfl

/-! ### `charge` -/

@[simp] theorem State.charge_r0 (s : State) (n : Nat) : (s.charge n).r0 = s.r0 := rfl
@[simp] theorem State.charge_r1 (s : State) (n : Nat) : (s.charge n).r1 = s.r1 := rfl
@[simp] theorem State.charge_r2 (s : State) (n : Nat) : (s.charge n).r2 = s.r2 := rfl
@[simp] theorem State.charge_r3 (s : State) (n : Nat) : (s.charge n).r3 = s.r3 := rfl
@[simp] theorem State.charge_r4 (s : State) (n : Nat) : (s.charge n).r4 = s.r4 := rfl
@[simp] theorem State.charge_r5 (s : State) (n : Nat) : (s.charge n).r5 = s.r5 := rfl
@[simp] theorem State.charge_pc (s : State) (n : Nat) : (s.charge n).pc = s.pc := rfl
@[simp] theorem State.charge_sp (s : State) (n : Nat) : (s.charge n).sp = s.sp := rfl
@[simp] theorem State.charge_status (s : State) (n : Nat) : (s.charge n).status = s.status := rfl
@[simp] theorem State.charge_pending (s : State) (n : Nat) : (s.charge n).pending = s.pending := rfl
@[simp] theorem State.charge_halted (s : State) (n : Nat) : (s.charge n).halted = s.halted := rfl
@[simp] theorem State.charge_fault (s : State) (n : Nat) : (s.charge n).fault = s.fault := rfl
@[simp] theorem State.charge_mem (s : State) (n : Nat) : (s.charge n).mem = s.mem := rfl
@[simp] theorem State.charge_cycles (s : State) (n : Nat) : (s.charge n).cycles = s.cycles.map (· - (n : Int)) := rfl
@[simp] theorem State.charge_reg (s : State) (n : Nat) (r : Reg) : (s.charge n).reg r = s.reg r := by cases r <;> rfl

/-! ### `fetched` -/

@[simp] theorem State.fetched_r0 (s : State) (n : Nat) : (s.fetched n).r0 = s.r0 := rfl
@[simp] theorem State.fetched_r1 (s : State) (n : Nat) : (s.fetched n).r1 = s.r1 := rfl
@[simp] theorem State.fetched_r2 (s : State) (n : Nat) : (s.fetched n).r2 = s.r2 := rfl
@[simp] theorem State.fetched_r3 (s : State) (n : Nat) : (s.fetched n).r3 = s.r3 := rfl
@[simp] theorem State.fetched_r4 (s : State) (n : Nat) : (s.fetched n).r4 = s.r4 := rfl
@[simp] theorem State.fetched_r5 (s : State) (n : Nat) : (s.fetched n).r5 = s.r5 := rfl
@[simp] theorem State.fetched_pc (s : State) (n : Nat) : (s.fetched n).pc = s.pc + BitVec.ofNat 16 n := rfl
@[simp] theorem State.fetched_sp (s : State) (n : Nat) : (s.fetched n).sp = s.sp := rfl
@[simp] theorem State.fetched_status (s : State) (n : Nat) : (s.fetched n).status = s.status := rfl
@[simp] theorem State.fetched_pending (s : State) (n : Nat) : (s.fetched n).pending = s.pending := rfl
@[simp] theorem State.fetched_halted (s : State) (n : Nat) : (s.fetched n).halted = s.halted := rfl
@[simp] theorem State.fetched_fault (s : State) (n : Nat) : (s.fetched n).fault = s.fault := rfl
@[simp] theorem State.fetched_mem (s : State) (n : Nat) : (s.fetched n).mem = s.mem := rfl
@[simp] theorem State.fetched_cycles (s : State) (n : Nat) :
    (s.fetched n).cycles = s.cycles.map (· - (n : Int)) := rfl
@[simp] theorem State.fetched_reg (s : State) (n : Nat) (r : Reg) :
    (s.fetched n).reg r = if r = .pc then s.pc + BitVec.ofNat 16 n else s.reg r := by
  cases r <;> rfl

/-! ### `memWrite8` -/

@[simp] theorem State.memWrite8_r0 (s : State) (a : Word) (v : Byte) : (s.memWrite8 a v).r0 = s.r0 := rfl
@[simp] theorem State.memWrite8_r1 (s : State) (a : Word) (v : Byte) : (s.memWrite8 a v).r1 = s.r1 := rfl
@[simp] theorem State.memWrite8_r2 (s : State) (a : Word) (v : Byte) : (s.memWrite8 a v).r2 = s.r2 := rfl
@[simp] theorem State.memWrite8_r3 (s : State) (a : Word) (v : Byte) : (s.memWrite8 a v).r3 = s.r3 := rfl
@[simp] theorem State.memWrite8_r4 (s : State) (a : Word) (v : Byte) : (s.memWrite8 a v).r4 = s.r4 := rfl
@[simp] theorem State.memWrite8_r5 (s : State) (a : Word) (v : Byte) : (s.memWrite8 a v).r5 = s.r5 := rfl
@[simp] theorem State.memWrite8_pc (s : State) (a : Word) (v : Byte) : (s.memWrite8 a v).pc = s.pc := rfl
@[simp] theorem State.memWrite8_sp (s : State) (a : Word) (v : Byte) : (s.memWrite8 a v).sp = s.sp := rfl
@[simp] theorem State.memWrite8_status (s : State) (a : Word) (v : Byte) : (s.memWrite8 a v).status = s.status := rfl
@[simp] theorem State.memWrite8_pending (s : State) (a : Word) (v : Byte) :
    (s.memWrite8 a v).pending = s.pending := rfl
@[simp] theorem State.memWrite8_halted (s : State) (a : Word) (v : Byte) : (s.memWrite8 a v).halted = s.halted := rfl
@[simp] theorem State.memWrite8_fault (s : State) (a : Word) (v : Byte) : (s.memWrite8 a v).fault = s.fault := rfl
@[simp] theorem State.memWrite8_mem (s : State) (a : Word) (v : Byte) :
    (s.memWrite8 a v).mem = Memory.writeByte s.mem a.toNat v := rfl
@[simp] theorem State.memWrite8_cycles (s : State) (a : Word) (v : Byte) :
    (s.memWrite8 a v).cycles = s.cycles.map (· - ((1 : Nat) : Int)) := rfl
@[simp] theorem State.memWrite8_reg (s : State) (a : Word) (v : Byte) (r : Reg) : (s.memWrite8 a v).reg r = s.reg r := by cases r <;> rfl

/-! ### `memWrite16` -/

@[simp] theorem State.memWrite16_r0 (s : State) (a v : Word) : (s.memWrite16 a v).r0 = s.r0 := rfl
@[simp] theorem State.memWrite16_r1 (s : State) (a v : Word) : (s.memWrite16 a v).r1 = s.r1 := rfl
@[simp] theorem State.memWrite16_r2 (s : State) (a v : Word) : (s.memWrite16 a v).r2 = s.r2 := rfl
@[simp] theorem State.memWrite16_r3 (s : State) (a v : Word) : (s.memWrite16 a v).r3 = s.r3 := rfl
@[simp] theorem State.memWrite16_r4 (s : State) (a v : Word) : (s.memWrite16 a v).r4 = s.r4 := rfl
@[simp] theorem State.memWrite16_r5 (s : State) (a v : Word) : (s.memWrite16 a v).r5 = s.r5 := rfl
@[simp] theorem State.memWrite16_pc (s : State) (a v : Word) : (s.memWrite16 a v).pc = s.pc := rfl
@[simp] theorem State.memWrite16_sp (s : State) (a v : Word) : (s.memWrite16 a v).sp = s.sp := rfl
@[simp] theorem State.memWrite16_status (s : State) (a v : Word) : (s.memWrite16 a v).status = s.status := rfl
@[simp] theorem State.memWrite16_pending (s : State) (a v : Word) : (s.memWrite16 a v).pending = s.pending := rfl
@[simp] theorem State.memWrite16_halted (s : State) (a v : Word) : (s.memWrite16 a v).halted = s.halted := rfl
@[simp] theorem State.memWrite16_fault (s : State) (a v : Word) : (s.memWrite16 a v).fault = s.fault := rfl
@[simp] theorem State.memWrite16_mem (s : State) (a v : Word) :
    (s.memWrite16 a v).mem = Memory.writeWord s.mem a v := rfl
@[simp] theorem State.memWrite16_cycles (s : State) (a v : Word) :
    (s.memWrite16 a v).cycles = s.cycles.map (· - ((2 : Nat) : Int)) := rfl
@[simp] theorem State.memWrite16_reg (s : State) (a v : Word) (r : Reg) : (s.memWrite16 a v).reg r = s.reg r := by cases r <;> rfl

/-! ### `push16` -/

@[simp] theorem State.push16_r0 (s : State) (v : Word) : (s.push16 v).r0 = s.r0 := rfl
@[simp] theorem State.push16_r1 (s : State) (v : Word) : (s.push16 v).r1 = s.r1 := rfl
@[simp] theorem State.push16_r2 (s : State) (v : Word) : (s.push16 v).r2 = s.r2 := rfl
@[simp] theorem State.push16_r3 (s : State) (v : Word) : (s.push16 v).r3 = s.r3 := rfl
@[simp] theorem State.push16_r4 (s : State) (v : Word) : (s.push16 v).r4 = s.r4 := rfl
@[simp] theorem State.push16_r5 (s : State) (v : Word) : (s.push16 v).r5 = s.r5 := rfl
@[simp] theorem State.push16_pc (s : State) (v : Word) : (s.push16 v).pc = s.pc := rfl
@[simp] theorem State.push16_sp (s : State) (v : Word) : (s.push16 v).sp = s.sp - 2 := rfl
@[simp] theorem State.push16_status (s : State) (v : Word) : (s.push16 v).status = s.status := rfl
@[simp] theorem State.push16_pending (s : State) (v : Word) : (s.push16 v).pending = s.pending := rfl
@[simp] theorem State.push16_halted (s : State) (v : Word) : (s.push16 v).halted = s.halted := rfl
@[simp] theorem State.push16_fault (s : State) (v : Word) : (s.push16 v).fault = s.fault := rfl
@[simp] theorem State.push16_mem (s : State) (v : Word) :
    (s.push16 v).mem = Memory.writeWord s.mem (s.sp - 2) v := rfl
@[simp] theorem State.push16_cycles (s : State) (v : Word) :
    (s.push16 v).cycles = s.cycles.map (· - ((2 : Nat) : Int)) := rfl
@[simp] theorem State.push16_reg (s : State) (v : Word) (r : Reg) :
    (s.push16 v).reg r = if r = .sp then s.sp - 2 else s.reg r := by
  cases r <;> rfl

/-! ### `raise` -/

@[simp] theorem State.raise_r0 (s : State) (k : FaultKind) (n : Nat) : (s.raise k n).r0 = s.r0 := rfl
@[simp] theorem State.raise_r1 (s : State) (k : FaultKind) (n : Nat) : (s.raise k n).r1 = s.r1 := rfl
@[simp] theorem State.raise_r2 (s : State) (k : FaultKind) (n : Nat) : (s.raise k n).r2 = s.r2 := rfl
@[simp] theorem State.raise_r3 (s : State) (k : FaultKind) (n : Nat) : (s.raise k n).r3 = s.r3 := rfl
@[simp] theorem State.raise_r4 (s : State) (k : FaultKind) (n : Nat) : (s.raise k n).r4 = s.r4 := rfl
@[simp] theorem State.raise_r5 (s : State) (k : FaultKind) (n : Nat) : (s.raise k n).r5 = s.r5 := rfl
@[simp] theorem State.raise_pc (s : State) (k : FaultKind) (n : Nat) :
    (s.raise k n).pc = s.pc + BitVec.ofNat 16 n := rfl
@[simp] theorem State.raise_sp (s : State) (k : FaultKind) (n : Nat) : (s.raise k n).sp = s.sp := rfl
@[simp] theorem State.raise_status (s : State) (k : FaultKind) (n : Nat) : (s.raise k n).status = s.status := rfl
@[simp] theorem State.raise_pending (s : State) (k : FaultKind) (n : Nat) : (s.raise k n).pending = s.pending := rfl
@[simp] theorem State.raise_halted (s : State) (k : FaultKind) (n : Nat) : (s.raise k n).halted = s.halted := rfl
@[simp] theorem State.raise_fault (s : State) (k : FaultKind) (n : Nat) :
    (s.raise k n).fault = some ⟨k, s.pc, Memory.readByte s.mem s.pc.toNat⟩ := rfl
@[simp] theorem State.raise_mem (s : State) (k : FaultKind) (n : Nat) : (s.raise k n).mem = s.mem := rfl
@[simp] theorem State.raise_cycles (s : State) (k : FaultKind) (n : Nat) :
    (s.raise k n).cycles = s.cycles.map (· - (n : Int)) := rfl
@[simp] theorem State.raise_reg (s : State) (k : FaultKind) (n : Nat) (r : Reg) :
    (s.raise k n).reg r = if r = .pc then s.pc + BitVec.ofNat 16 n else s.reg r := by
  cases r <;> rfl

/-! ### `endCall` -/

@[simp] theorem State.endCall_r0 (s : State) : s.endCall.r0 = s.r0 := rfl
@[simp] theorem State.endCall_r1 (s : State) : s.endCall.r1 = s.r1 := rfl
@[simp] theorem State.endCall_r2 (s : State) : s.endCall.r2 = s.r2 := rfl
@[simp] theorem State.endCall_r3 (s : State) : s.endCall.r3 = s.r3 := rfl
@[simp] theorem State.endCall_r4 (s : State) : s.endCall.r4 = s.r4 := rfl
@[simp] theorem State.endCall_r5 (s : State) : s.endCall.r5 = s.r5 := rfl
@[simp] theorem State.endCall_pc (s : State) : s.endCall.pc = s.pc := rfl
@[simp] theorem State.endCall_sp (s : State) : s.endCall.sp = s.sp := rfl
@[simp] theorem State.endCall_status (s : State) : s.endCall.status = s.status := rfl
@[simp] theorem State.endCall_pending (s : State) : s.endCall.pending = s.pending := rfl
@[simp] theorem State.endCall_halted (s : State) : s.endCall.halted = s.halted := rfl
@[simp] theorem State.endCall_fault (s : State) : s.endCall.fault = s.fault := rfl
@[simp] theorem State.endCall_mem (s : State) : s.endCall.mem = s.mem := rfl
@[simp] theorem State.endCall_cycles (s : State) : s.endCall.cycles = none := rfl
@[simp] theorem State.endCall_reg (s : State)(r : Reg) : s.endCall.reg r = s.reg r := by cases r <;> rfl

/-! ### `fetchedAs` -/

@[simp] theorem State.fetchedAs_r0 (s : State) (f : Format) (m : Bool) : (s.fetchedAs f m).r0 = s.r0 := rfl
@[simp] theorem State.fetchedAs_r1 (s : State) (f : Format) (m : Bool) : (s.fetchedAs f m).r1 = s.r1 := rfl
@[simp] theorem State.fetchedAs_r2 (s : State) (f : Format) (m : Bool) : (s.fetchedAs f m).r2 = s.r2 := rfl
@[simp] theorem State.fetchedAs_r3 (s : State) (f : Format) (m : Bool) : (s.fetchedAs f m).r3 = s.r3 := rfl
@[simp] theorem State.fetchedAs_r4 (s : State) (f : Format) (m : Bool) : (s.fetchedAs f m).r4 = s.r4 := rfl
@[simp] theorem State.fetchedAs_r5 (s : State) (f : Format) (m : Bool) : (s.fetchedAs f m).r5 = s.r5 := rfl
@[simp] theorem State.fetchedAs_pc (s : State) (f : Format) (m : Bool) :
    (s.fetchedAs f m).pc = s.pc + BitVec.ofNat 16 (f.length m) := rfl
@[simp] theorem State.fetchedAs_sp (s : State) (f : Format) (m : Bool) : (s.fetchedAs f m).sp = s.sp := rfl
@[simp] theorem State.fetchedAs_status (s : State) (f : Format) (m : Bool) :
    (s.fetchedAs f m).status = s.status := rfl
@[simp] theorem State.fetchedAs_pending (s : State) (f : Format) (m : Bool) :
    (s.fetchedAs f m).pending = s.pending := rfl
@[simp] theorem State.fetchedAs_halted (s : State) (f : Format) (m : Bool) :
    (s.fetchedAs f m).halted = s.halted := rfl
@[simp] theorem State.fetchedAs_fault (s : State) (f : Format) (m : Bool) : (s.fetchedAs f m).fault = s.fault := rfl
@[simp] theorem State.fetchedAs_mem (s : State) (f : Format) (m : Bool) : (s.fetchedAs f m).mem = s.mem := rfl
@[simp] theorem State.fetchedAs_cycles (s : State) (f : Format) (m : Bool) :
    (s.fetchedAs f m).cycles = s.cycles.map (· - (f.length m : Int)) := rfl
@[simp] theorem State.fetchedAs_reg (s : State) (f : Format) (m : Bool) (r : Reg) :
    (s.fetchedAs f m).reg r = if r = .pc then s.pc + BitVec.ofNat 16 (f.length m) else s.reg r := by
  cases r <;> rfl

/-! ### Pairs -/

@[simp] theorem State.memRead8_eq (s : State) (a : Word) : s.memRead8 a = (Memory.readByte s.mem a.toNat, s.charge 1) := rfl

@[simp] theorem State.memRead16_eq (s : State) (a : Word) : s.memRead16 a = (Memory.readWord s.mem a, s.charge 2) := rfl

@[simp] theorem State.pop16_fst (s : State) : s.pop16.1 = Memory.readWord s.mem s.sp := rfl

@[simp] theorem State.pop16_reg (s : State) (r : Reg) : s.pop16.2.reg r = if r = .sp then s.sp + 2 else s.reg r := by
  cases r <;> rfl

@[simp] theorem State.pop16_r0 (s : State) : s.pop16.2.r0 = s.r0 := rfl

@[simp] theorem State.pop16_r1 (s : State) : s.pop16.2.r1 = s.r1 := rfl

@[simp] theorem State.pop16_r2 (s : State) : s.pop16.2.r2 = s.r2 := rfl

@[simp] theorem State.pop16_r3 (s : State) : s.pop16.2.r3 = s.r3 := rfl

@[simp] theorem State.pop16_r4 (s : State) : s.pop16.2.r4 = s.r4 := rfl

@[simp] theorem State.pop16_r5 (s : State) : s.pop16.2.r5 = s.r5 := rfl

@[simp] theorem State.pop16_pc (s : State) : s.pop16.2.pc = s.pc := rfl

@[simp] theorem State.pop16_sp (s : State) : s.pop16.2.sp = s.sp + 2 := rfl

@[simp] theorem State.pop16_status (s : State) : s.pop16.2.status = s.status := rfl

@[simp] theorem State.pop16_pending (s : State) : s.pop16.2.pending = s.pending := rfl

@[simp] theorem State.pop16_halted (s : State) : s.pop16.2.halted = s.halted := rfl

@[simp] theorem State.pop16_fault (s : State) : s.pop16.2.fault = s.fault := rfl

@[simp] theorem State.pop16_mem (s : State) : s.pop16.2.mem = s.mem := rfl

@[simp] theorem State.pop16_cycles (s : State) : s.pop16.2.cycles = s.cycles.map (· - ((2 : Nat) : Int)) := rfl

/-! ### `arith` and `jumpIf` -/

@[simp] theorem State.arith_reg (s : State) (k : ArithKind) (a : Reg) (va vb : Word) (r : Reg) :
    (s.arith k a va vb).reg r = if r = a then trunc16 (k.result va vb).1 else s.reg r := by
  simp [State.arith]

@[simp] theorem State.arith_r0 (s : State) (k : ArithKind) (a : Reg) (va vb : Word) :
    (s.arith k a va vb).r0 = if a = .r0 then trunc16 (k.result va vb).1 else s.r0 := by
  cases a <;> rfl

@[simp] theorem State.arith_r1 (s : State) (k : ArithKind) (a : Reg) (va vb : Word) :
    (s.arith k a va vb).r1 = if a = .r1 then trunc16 (k.result va vb).1 else s.r1 := by
  cases a <;> rfl

@[simp] theorem State.arith_r2 (s : State) (k : ArithKind) (a : Reg) (va vb : Word) :
    (s.arith k a va vb).r2 = if a = .r2 then trunc16 (k.result va vb).1 else s.r2 := by
  cases a <;> rfl

@[simp] theorem State.arith_r3 (s : State) (k : ArithKind) (a : Reg) (va vb : Word) :
    (s.arith k a va vb).r3 = if a = .r3 then trunc16 (k.result va vb).1 else s.r3 := by
  cases a <;> rfl

@[simp] theorem State.arith_r4 (s : State) (k : ArithKind) (a : Reg) (va vb : Word) :
    (s.arith k a va vb).r4 = if a = .r4 then trunc16 (k.result va vb).1 else s.r4 := by
  cases a <;> rfl

@[simp] theorem State.arith_r5 (s : State) (k : ArithKind) (a : Reg) (va vb : Word) :
    (s.arith k a va vb).r5 = if a = .r5 then trunc16 (k.result va vb).1 else s.r5 := by
  cases a <;> rfl

@[simp] theorem State.arith_pc (s : State) (k : ArithKind) (a : Reg) (va vb : Word) :
    (s.arith k a va vb).pc = if a = .pc then trunc16 (k.result va vb).1 else s.pc := by
  cases a <;> rfl

@[simp] theorem State.arith_sp (s : State) (k : ArithKind) (a : Reg) (va vb : Word) :
    (s.arith k a va vb).sp = if a = .sp then trunc16 (k.result va vb).1 else s.sp := by
  cases a <;> rfl

@[simp] theorem State.arith_status (s : State) (k : ArithKind) (a : Reg) (va vb : Word) :
    (s.arith k a va vb).status = arithFlags k (k.result va vb).1 (k.result va vb).2 s.status := by
  simp [State.arith]

@[simp] theorem State.arith_pending (s : State) (k : ArithKind) (a : Reg) (va vb : Word) :
    (s.arith k a va vb).pending = s.pending := by
  simp [State.arith]

@[simp] theorem State.arith_halted (s : State) (k : ArithKind) (a : Reg) (va vb : Word) :
    (s.arith k a va vb).halted = s.halted := by
  simp [State.arith]

@[simp] theorem State.arith_fault (s : State) (k : ArithKind) (a : Reg) (va vb : Word) :
    (s.arith k a va vb).fault = s.fault := by
  simp [State.arith]

@[simp] theorem State.arith_mem (s : State) (k : ArithKind) (a : Reg) (va vb : Word) :
    (s.arith k a va vb).mem = s.mem := by
  simp [State.arith]

@[simp] theorem State.arith_cycles (s : State) (k : ArithKind) (a : Reg) (va vb : Word) :
    (s.arith k a va vb).cycles = s.cycles := by
  simp [State.arith]

@[simp] theorem State.jumpIf_reg (s : State) (c : Bool) (ea : Word) (r : Reg) :
    (s.jumpIf c ea).reg r = if c = true ∧ r = .pc then ea else s.reg r := by
  cases c <;> cases r <;> rfl

@[simp] theorem State.jumpIf_r0 (s : State) (c : Bool) (ea : Word) : (s.jumpIf c ea).r0 = s.r0 := by cases c <;> rfl

@[simp] theorem State.jumpIf_r1 (s : State) (c : Bool) (ea : Word) : (s.jumpIf c ea).r1 = s.r1 := by cases c <;> rfl

@[simp] theorem State.jumpIf_r2 (s : State) (c : Bool) (ea : Word) : (s.jumpIf c ea).r2 = s.r2 := by cases c <;> rfl

@[simp] theorem State.jumpIf_r3 (s : State) (c : Bool) (ea : Word) : (s.jumpIf c ea).r3 = s.r3 := by cases c <;> rfl

@[simp] theorem State.jumpIf_r4 (s : State) (c : Bool) (ea : Word) : (s.jumpIf c ea).r4 = s.r4 := by cases c <;> rfl

@[simp] theorem State.jumpIf_r5 (s : State) (c : Bool) (ea : Word) : (s.jumpIf c ea).r5 = s.r5 := by cases c <;> rfl

@[simp] theorem State.jumpIf_sp (s : State) (c : Bool) (ea : Word) : (s.jumpIf c ea).sp = s.sp := by cases c <;> rfl

@[simp] theorem State.jumpIf_pc (s : State) (c : Bool) (ea : Word) : (s.jumpIf c ea).pc = if c then ea else s.pc := by cases c <;> rfl

@[simp] theorem State.jumpIf_status (s : State) (c : Bool) (ea : Word) : (s.jumpIf c ea).status = s.status := by cases c <;> rfl

@[simp] theorem State.jumpIf_pending (s : State) (c : Bool) (ea : Word) : (s.jumpIf c ea).pending = s.pending := by cases c <;> rfl

@[simp] theorem State.jumpIf_halted (s : State) (c : Bool) (ea : Word) : (s.jumpIf c ea).halted = s.halted := by cases c <;> rfl

@[simp] theorem State.jumpIf_fault (s : State) (c : Bool) (ea : Word) : (s.jumpIf c ea).fault = s.fault := by cases c <;> rfl

@[simp] theorem State.jumpIf_mem (s : State) (c : Bool) (ea : Word) : (s.jumpIf c ea).mem = s.mem := by cases c <;> rfl

@[simp] theorem State.jumpIf_cycles (s : State) (c : Bool) (ea : Word) : (s.jumpIf c ea).cycles = s.cycles := by cases c <;> rfl

/-! ### `service` and `resetCore` -/

@[simp] theorem State.service_halted (s : State) (o : IrqFrameOrder) (k : Fin 8) : (s.service o k).halted = s.halted := by cases o <;> simp [State.service]

@[simp] theorem State.service_fault (s : State) (o : IrqFrameOrder) (k : Fin 8) : (s.service o k).fault = s.fault := by cases o <;> simp [State.service]

@[simp] theorem State.service_sp (s : State) (o : IrqFrameOrder) (k : Fin 8) : (s.service o k).sp = s.sp - 4 := by
  cases o <;> simp [State.service] <;> bv_omega

@[simp] theorem State.service_pending (s : State) (o : IrqFrameOrder) (k : Fin 8) : (s.service o k).pending = setBit s.pending k.val false := by cases o <;> simp [State.service]

@[simp] theorem State.service_status (s : State) (o : IrqFrameOrder) (k : Fin 8) : (s.service o k).status = setFlag s.status .i false := by cases o <;> simp [State.service]

@[simp] theorem State.service_cycles (s : State) (o : IrqFrameOrder) (k : Fin 8) : (s.service o k).cycles = s.cycles.map (· - 6) := by
  cases o <;> cases h : s.cycles <;> simp [State.service, h, State.push16, State.charge, State.memWrite16] <;> omega

@[simp] theorem State.service_r0 (s : State) (o : IrqFrameOrder) (k : Fin 8) : (s.service o k).r0 = s.r0 := by
  cases o <;> simp [State.service]

@[simp] theorem State.service_r1 (s : State) (o : IrqFrameOrder) (k : Fin 8) : (s.service o k).r1 = s.r1 := by
  cases o <;> simp [State.service]

@[simp] theorem State.service_r2 (s : State) (o : IrqFrameOrder) (k : Fin 8) : (s.service o k).r2 = s.r2 := by
  cases o <;> simp [State.service]

@[simp] theorem State.service_r3 (s : State) (o : IrqFrameOrder) (k : Fin 8) : (s.service o k).r3 = s.r3 := by
  cases o <;> simp [State.service]

@[simp] theorem State.service_r4 (s : State) (o : IrqFrameOrder) (k : Fin 8) : (s.service o k).r4 = s.r4 := by
  cases o <;> simp [State.service]

@[simp] theorem State.service_r5 (s : State) (o : IrqFrameOrder) (k : Fin 8) : (s.service o k).r5 = s.r5 := by
  cases o <;> simp [State.service]

@[simp] theorem State.service_reg (s : State) (o : IrqFrameOrder) (k : Fin 8) (r : Reg) (hpc : r ≠ .pc) (hsp : r ≠ .sp) :
    (s.service o k).reg r = s.reg r := by
  cases o <;> cases r <;> first | contradiction | simp [State.service]

theorem State.service_pc (s : State) (o : IrqFrameOrder) (k : Fin 8) :
    (s.service o k).pc = Memory.readWord (s.service o k).mem (vectorAddr k) := by cases o <;> simp [State.service]

theorem State.service_mem (s : State) (o : IrqFrameOrder) (k : Fin 8) :
    (s.service o k).mem =
      match o with
      | .statusThenPc => Memory.writeWord (Memory.writeWord s.mem (s.sp - 2) (zext16 s.status)) (s.sp - 2 - 2) s.pc
      | .pcThenStatus => Memory.writeWord (Memory.writeWord s.mem (s.sp - 2) s.pc) (s.sp - 2 - 2) (zext16 s.status) := by
  cases o <;> simp [State.service]

@[simp] theorem State.service_mem_size (s : State) (o : IrqFrameOrder) (k : Fin 8) :
    (s.service o k).mem.size = s.mem.size := by cases o <;> simp [State.service, State.push16, State.memWrite16, Memory.writeWord, Memory.writeByte]

@[simp] theorem State.resetCore_r0 (s : State) : s.resetCore.r0 = 0 := rfl

@[simp] theorem State.resetCore_r1 (s : State) : s.resetCore.r1 = 0 := rfl

@[simp] theorem State.resetCore_r2 (s : State) : s.resetCore.r2 = 0 := rfl

@[simp] theorem State.resetCore_r3 (s : State) : s.resetCore.r3 = 0 := rfl

@[simp] theorem State.resetCore_r4 (s : State) : s.resetCore.r4 = 0 := rfl

@[simp] theorem State.resetCore_r5 (s : State) : s.resetCore.r5 = 0 := rfl

@[simp] theorem State.resetCore_pc (s : State) : s.resetCore.pc = 0 := rfl

@[simp] theorem State.resetCore_sp (s : State) : s.resetCore.sp = 0x00A0 := rfl

@[simp] theorem State.resetCore_status (s : State) : s.resetCore.status = 0 := rfl

@[simp] theorem State.resetCore_pending (s : State) : s.resetCore.pending = 0 := rfl

@[simp] theorem State.resetCore_halted (s : State) : s.resetCore.halted = false := rfl

@[simp] theorem State.resetCore_fault (s : State) : s.resetCore.fault = none := rfl

@[simp] theorem State.resetCore_mem (s : State) : s.resetCore.mem = ⟨s.mem.size, []⟩ := rfl

@[simp] theorem State.resetCore_cycles (s : State) : s.resetCore.cycles = s.cycles := rfl

end Sys2Proof.Machine
end

