-- ==== Sys2Proof/Laws/Canonical.lean ====
section
/-! SUPPORT. Every operation of the machine that touches memory keeps its canonical form and its length, and reset memory
has that form; what an instruction can do to memory, said once. -/

namespace Sys2Proof.Machine

theorem State.wf_reset : Memory.wf State.reset.mem = true := by decide

theorem State.wf_create (cfg : Config) (h : Config.LegalMemSize cfg.memSize) : Memory.wf (create cfg).mem = true :=
  Memory.wf_zeroed _ h

theorem State.wf_memWrite8 (s : State) (a : Word) (v : Byte) (h : Memory.wf s.mem = true) :
    Memory.wf (s.memWrite8 a v).mem = true := Memory.wf_writeByte _ _ _ h

theorem State.wf_memWrite16 (s : State) (a v : Word) (h : Memory.wf s.mem = true) :
    Memory.wf (s.memWrite16 a v).mem = true := Memory.wf_writeWord _ _ _ h

theorem State.wf_push16 (s : State) (v : Word) (h : Memory.wf s.mem = true) : Memory.wf (s.push16 v).mem = true :=
  Memory.wf_writeWord _ _ _ h

theorem State.wf_raise (s : State) (k : FaultKind) (n : Nat) (h : Memory.wf s.mem = true) :
    Memory.wf (s.raise k n).mem = true := h

theorem State.wf_resetCore (s : State) (h : Memory.wf s.mem = true) : Memory.wf s.resetCore.mem = true :=
  Memory.wf_zeroed _ (Memory.legalSize_of_wf h)

theorem State.wf_service (s : State) (o : IrqFrameOrder) (k : Fin 8) (h : Memory.wf s.mem = true) :
    Memory.wf (s.service o k).mem = true := by
  rw [State.service_mem]
  cases o <;> exact Memory.wf_writeWord _ _ _ (Memory.wf_writeWord _ _ _ h)

theorem State.wf_withFetchWord (s : State) (nbits w : Nat) (h : Memory.wf s.mem = true) :
    Memory.wf (s.withFetchWord nbits w).mem = true := Memory.wf_writeStream _ _ _ h

theorem State.wf_load (s t : State) (image : List Byte) (h : Memory.wf s.mem = true) (hl : s.load image = .ok t) :
    Memory.wf t.mem = true := by
  unfold State.load at hl
  split at hl
  · cases hl; exact Memory.wf_writeBytes _ _ _ h
  · cases hl

/-- Everything an instruction can do to memory: nothing, one word written, or, for RESET, all of it zeroed. -/
theorem exec_mem_cases (i : Instr) (s t : State) (h : exec i s = .next t) :
    t.mem = s.mem ∨ (∃ a v, t.mem = Memory.writeWord s.mem a v) ∨ (i = .reset ∧ t.mem = ⟨s.mem.size, []⟩) := by
  cases i with
  | div a b =>
    simp only [exec, execDiv] at h
    split at h <;> cases h <;> left <;> simp
  | divc a w =>
    simp only [exec, execDivc] at h
    split at h <;> cases h <;> left <;> simp
  | strm a addr => cases h; exact .inr (.inl ⟨_, _, rfl⟩)
  | stcm w addr => cases h; exact .inr (.inl ⟨_, _, rfl⟩)
  | jsr addr => cases h; exact .inr (.inl ⟨_, _, rfl⟩)
  | push a => cases h; exact .inr (.inl ⟨_, _, rfl⟩)
  | pushc w => cases h; exact .inr (.inl ⟨_, _, rfl⟩)
  | pushs => cases h; exact .inr (.inl ⟨_, _, rfl⟩)
  | reset => cases h; exact .inr (.inr ⟨rfl, rfl⟩)
  | _ => cases h; left; simp

/-- No instruction changes the length of the array. -/
theorem exec_mem_size (i : Instr) (s t : State) (h : exec i s = .next t) : t.mem.size = s.mem.size := by
  rcases exec_mem_cases i s t h with e | ⟨a, v, e⟩ | ⟨-, e⟩ <;> simp [e]

/-- Every instruction keeps the canonical form. -/
theorem exec_wf (i : Instr) (s t : State) (h : Memory.wf s.mem = true) (he : exec i s = .next t) :
    Memory.wf t.mem = true := by
  rcases exec_mem_cases i s t he with e | ⟨a, v, e⟩ | ⟨-, e⟩ <;> rw [e]
  · exact h
  · exact Memory.wf_writeWord _ _ _ h
  · exact Memory.wf_zeroed _ (Memory.legalSize_of_wf h)

end Sys2Proof.Machine
end

