-- ==== Sys2Proof/Laws/Decode.lean ====
section
/-! SUPPORT. The small laws of the decoder's and encoder's parts. -/

namespace Sys2Proof

@[simp] theorem Reg.ofSelector_selector (r : Reg) : Reg.ofSelector r.selector.toNat = some r := by cases r <;> rfl

/-- A register's own selector names it under either policy (R75). -/
@[simp] theorem SelectorPolicy.select_selector (p : SelectorPolicy) (r : Reg) : p.select r.selector = some r := by
  cases p <;> cases r <;> rfl

theorem Reg.selector_of_ofSelector (n : Nat) (r : Reg) (h : Reg.ofSelector n = some r) : r.selector.toNat = n := by
  unfold Reg.ofSelector at h
  split at h <;> cases h <;> rfl

theorem Reg.ofSelector_isSome (n : Nat) : (Reg.ofSelector n).isSome = decide (n ≤ 7) := by
  rcases Nat.lt_or_ge n 8 with h | h
  · interval_cases n <;> rfl
  · obtain ⟨k, rfl⟩ := Nat.exists_eq_add_of_le' h
    have : ¬ k + 8 ≤ 7 := by omega
    simp [Reg.ofSelector, this]

/-- Under the default policy a selector byte names a slot exactly when it is 7 or less (R75). -/
theorem SelectorPolicy.select_fault_eq_none (b : Byte) : SelectorPolicy.fault.select b = none ↔ 7 < b.toNat := by
  have h := Reg.ofSelector_isSome b.toNat
  simp only [SelectorPolicy.select]
  cases e : Reg.ofSelector b.toNat <;> simp [e] at h ⊢ <;> omega

/-- The alternative policy never faults (R75). -/
theorem SelectorPolicy.select_mask_isSome (b : Byte) : (SelectorPolicy.mask.select b).isSome = true := by
  have h : (b &&& 7).toNat ≤ 7 := by
    rw [BitVec.toNat_and]
    exact Nat.and_le_right
  simp only [SelectorPolicy.select, Reg.ofSelector_isSome]
  simpa using h

@[simp] theorem opField_opcodeByte (op : BitVec 7) (m : Bool) : opField (opcodeByte op m) = op := by
  apply BitVec.eq_of_toNat_eq
  have := op.isLt
  simp only [opField, opcodeByte, BitVec.extractLsb'_toNat, BitVec.toNat_append,
    ← Nat.shiftLeft_add_eq_or_of_lt op.isLt, Nat.shiftRight_zero]
  cases m <;> simp <;> omega

@[simp] theorem modeBit_opcodeByte (op : BitVec 7) (m : Bool) : modeBit (opcodeByte op m) = m := by
  unfold modeBit opcodeByte
  rw [BitVec.getLsbD_append]
  cases m <;> rfl

/-- A number selects the mnemonic of its row, where no number stands twice (R80). -/
theorem OpcodeMap.opcodeOf_of_mem (map : OpcodeMap) (n : BitVec 7) (o : Opcode) (h : (map.map Prod.fst).Nodup)
    (hm : (n, o) ∈ map) : map.opcodeOf n = some o := by
  induction map with
  | nil => cases hm
  | cons row rest ih =>
    obtain ⟨n', o'⟩ := row
    simp only [List.map_cons, List.nodup_cons] at h
    rcases List.mem_cons.1 hm with e | hm'
    · cases e; simp [OpcodeMap.opcodeOf]
    · have : n' ≠ n := by
        rintro rfl
        exact h.1 (List.mem_map.2 ⟨_, hm', rfl⟩)
      simp [OpcodeMap.opcodeOf, this, ih h.2 hm']

theorem OpcodeMap.mem_of_opcodeOf (map : OpcodeMap) (n : BitVec 7) (o : Opcode) (h : map.opcodeOf n = some o) :
    (n, o) ∈ map := by
  induction map with
  | nil => cases h
  | cons row rest ih =>
    obtain ⟨n', o'⟩ := row
    unfold OpcodeMap.opcodeOf at h
    split at h
    · rename_i e; cases h; subst e; exact List.mem_cons_self
    · exact List.mem_cons_of_mem _ (ih h)

/-- A mnemonic's number is the number of a row of it. -/
theorem OpcodeMap.mem_of_numberOf (map : OpcodeMap) (n : BitVec 7) (o : Opcode) (h : map.numberOf o = some n) :
    (n, o) ∈ map := by
  induction map with
  | nil => cases h
  | cons row rest ih =>
    obtain ⟨n', o'⟩ := row
    unfold OpcodeMap.numberOf at h
    split at h
    · rename_i e; cases h; subst e; exact List.mem_cons_self
    · exact List.mem_cons_of_mem _ (ih h)

/-- A well-formed instruction has an opcode (R80). -/
theorem OpcodeMap.numberOf_isSome (map : OpcodeMap) (o : Opcode) (h : o ∈ map.map Prod.snd) :
    ∃ n, map.numberOf o = some n := by
  induction map with
  | nil => cases h
  | cons row rest ih =>
    obtain ⟨n', o'⟩ := row
    unfold OpcodeMap.numberOf
    split
    · exact ⟨_, rfl⟩
    · rename_i e
      simp only [List.map_cons, List.mem_cons] at h
      rcases h with h | h
      · exact absurd h.symm e
      · exact ih h

/-- The length of an instruction is one more than its operand bytes (R70, R79). -/
theorem Instr.length_eq (i : Instr) : i.length = i.operands.bytes.length + 1 := by
  cases i <;> first | rfl | (rename_i addr; cases addr <;> rfl)

theorem Instr.length_pos (i : Instr) : 0 < i.length := by rw [Instr.length_eq]; omega

theorem Format.length_le (f : Format) (m : Bool) : f.length m ≤ 6 := by cases f <;> cases m <;> decide

theorem Instr.length_le (i : Instr) : i.length ≤ 6 := Format.length_le _ _

/-! ### What the decoder reads -/

/-- A word by its two bytes' values (R53, R72). -/
theorem wordOfBytes_eq_ofNat (lo hi : Byte) : wordOfBytes lo hi = BitVec.ofNat 16 (lo.toNat + 256 * hi.toNat) := by
  have := lo.isLt
  have := hi.isLt
  apply BitVec.eq_of_toNat_eq
  rw [toNat_wordOfBytes, BitVec.toNat_ofNat]
  omega

/-- A selector position holds a register or ends the decoding there (R75). -/
theorem selectorAt_cases (p : SelectorPolicy) (src : Nat → Byte) (k : Nat) :
    (∃ r, selectorAt p src k = .ok r) ∨ selectorAt p src k = .error (.illegalSelector k) := by
  simp only [selectorAt]
  cases p.select (src k) with
  | none => exact .inr rfl
  | some r => exact .inl ⟨r, rfl⟩

/-- The decoder reads no byte past the sixth (R79). -/
theorem decodeAt_congr (cfg : Config) (src src' : Nat → Byte) (h : ∀ k, k < 6 → src k = src' k) :
    decodeAt cfg src = decodeAt cfg src' := by
  have h0 := h 0 (by omega)
  have h1 := h 1 (by omega)
  have h2 := h 2 (by omega)
  have h3 := h 3 (by omega)
  have h4 := h 4 (by omega)
  have h5 := h 5 (by omega)
  simp only [decodeAt, h0]
  split
  · rename_i o _
    generalize o.shape = sh
    cases sh <;> simp [Shape.read, selectorAt, addrAt, wordAt, h1, h2, h3, h4, h5]
  · rfl

end Sys2Proof
end

