-- ==== Sys2Proof/Laws/Flags.lean ====
section
/-! SUPPORT. The bits of a byte after one is written, the bits `arithFlags` leaves, and the integer conversions. -/

namespace Sys2Proof.Machine

theorem setBit_getLsbD (v : Byte) (k j : Nat) (x : Bool) (hk : k < 8) :
    (setBit v k x).getLsbD j = if j = k then x else v.getLsbD j := by
  unfold setBit
  by_cases hj : j < 8
  · by_cases e : j = k
    · subst e; cases x <;> simp [hj]
    · cases x <;> simp [e, hj]
  · have e : j ≠ k := by omega
    cases x <;> simp [e, BitVec.getLsbD_of_ge _ _ (by omega : 8 ≤ j)]

theorem Flag.bit_lt (f : Flag) : f.bit < 8 := by cases f <;> decide

theorem Flag.bit_inj (f g : Flag) : f.bit = g.bit ↔ f = g := by cases f <;> cases g <;> decide

theorem setFlag_getLsbD (v : Byte) (f : Flag) (j : Nat) (x : Bool) :
    (setFlag v f x).getLsbD j = if j = f.bit then x else v.getLsbD j :=
  setBit_getLsbD v f.bit j x f.bit_lt

@[simp] theorem getFlag_setFlag (v : Byte) (f g : Flag) (x : Bool) :
    getFlag (setFlag v f x) g = if g = f then x else getFlag v g := by
  simp only [getFlag, setFlag_getLsbD, Flag.bit_inj]

/-- Every bit `ArithFlags` leaves (R110): N, O, Z, C computed, the others as they were. -/
theorem arithFlags_getLsbD (k : ArithKind) (r sr : Int) (v : Byte) (j : Nat) :
    (arithFlags k r sr v).getLsbD j =
      if j = 1 then k.overflow sr else if j = 6 then k.carry r else if j = 0 then (trunc16 r).getLsbD 15
      else if j = 5 then decide (trunc16 r = 0) else v.getLsbD j := by
  simp only [arithFlags, setFlag_getLsbD, Flag.bit]
  rfl

theorem toNat_trunc16 (r : Int) : ((trunc16 r).toNat : Int) = r % 65536 := by
  simp [trunc16, BitVec.toNat_ofInt]
  omega

theorem trunc16_natCast (n : Nat) : trunc16 (n : Int) = BitVec.ofNat 16 n := by
  apply BitVec.eq_of_toNat_eq
  have := toNat_trunc16 n
  rw [BitVec.toNat_ofNat]
  omega

theorem getLsbD_15 (v : Word) : v.getLsbD 15 = decide (32768 ≤ v.toNat) := by
  have h : v.msb = v.getLsbD 15 := by simp [BitVec.msb_eq_getLsbD_last]
  rw [← h, BitVec.msb_eq_decide]

theorem sext16_eq_toInt (v : Word) : sext16 v = v.toInt := by
  have := v.isLt
  simp only [sext16, getLsbD_15, BitVec.toInt, decide_eq_true_eq]
  split <;> split <;> omega

end Sys2Proof.Machine
end

