-- ==== Sys2Proof/Laws/Ops.lean ====
section
/-! SUPPORT. The shared operations, each by everything it does: the accepted line, the stream read byte by byte, the
shifts by their values. -/

namespace Sys2Proof.Machine

/-! ### The interrupt controller -/

theorem lowestMaskable_eq_none (p : Byte) : lowestMaskable p = none ↔ ∀ j, j < 7 → p.getLsbD j = false := by
  simp only [lowestMaskable, List.find?_eq_none, List.mem_cons, List.not_mem_nil, or_false, forall_eq_or_imp,
    forall_eq, Bool.not_eq_true]
  constructor
  · rintro ⟨h0, h1, h2, h3, h4, h5, h6⟩ j hj
    interval_cases j <;> assumption
  · intro h
    exact ⟨h 0 (by omega), h 1 (by omega), h 2 (by omega), h 3 (by omega), h 4 (by omega), h 5 (by omega), h 6 (by omega)⟩

theorem lowestMaskable_some (p : Byte) (k : Fin 8) (h : lowestMaskable p = some k) :
    k.val < 7 ∧ p.getLsbD k.val = true ∧ ∀ j, j < k.val → p.getLsbD j = false := by
  simp only [lowestMaskable, List.find?_cons, List.find?_nil] at h
  split at h
  · rename_i h0
    cases h
    exact ⟨by decide, h0, fun j hj => absurd hj (by simp)⟩
  rename_i h0
  split at h
  · rename_i h1
    cases h
    exact ⟨by decide, h1, fun j (hj : j < 1) => by interval_cases j; simpa using h0⟩
  rename_i h1
  split at h
  · rename_i h2
    cases h
    exact ⟨by decide, h2, fun j (hj : j < 2) => by interval_cases j <;> [simpa using h0; simpa using h1]⟩
  rename_i h2
  split at h
  · rename_i h3
    cases h
    exact ⟨by decide, h3, fun j (hj : j < 3) => by interval_cases j <;> [simpa using h0; simpa using h1; simpa using h2]⟩
  rename_i h3
  split at h
  · rename_i h4
    cases h
    exact ⟨by decide, h4, fun j (hj : j < 4) => by
      interval_cases j <;> [simpa using h0; simpa using h1; simpa using h2; simpa using h3]⟩
  rename_i h4
  split at h
  · rename_i h5
    cases h
    exact ⟨by decide, h5, fun j (hj : j < 5) => by
      interval_cases j <;> [simpa using h0; simpa using h1; simpa using h2; simpa using h3; simpa using h4]⟩
  rename_i h5
  split at h
  · rename_i h6
    cases h
    exact ⟨by decide, h6, fun j (hj : j < 6) => by
      interval_cases j <;>
        [simpa using h0; simpa using h1; simpa using h2; simpa using h3; simpa using h4; simpa using h5]⟩
  · cases h

/-- The accepted line, by the two bytes it depends on (R213). -/
theorem acceptedLine_eq (s : State) :
    s.acceptedLine =
      if s.pending.getLsbD 7 then some 7 else if s.status.getLsbD 4 then lowestMaskable s.pending else none := rfl

/-! ### The stream -/

theorem State.fetched_fetched (s : State) (m n : Nat) : (s.fetched m).fetched n = s.fetched (m + n) := by
  have hpc : s.pc + BitVec.ofNat 16 m + BitVec.ofNat 16 n = s.pc + BitVec.ofNat 16 (m + n) := by
    apply BitVec.eq_of_toNat_eq
    simp
    omega
  have hcy : ((s.cycles.map (· - (m : Int))).map (· - (n : Int))) = s.cycles.map (· - ((m + n : Nat) : Int)) := by
    cases s.cycles <;> simp
    omega
  simp only [State.fetched, State.charge, hpc, hcy]

theorem State.fetch8_eq (s : State) : s.fetch8 = (Memory.readByte s.mem s.pc.toNat, s.fetched 1) := by
  simp [State.fetch8, State.fetched]

/-- `Fetch8` once `n` bytes of the instruction are fetched. -/
theorem State.fetch8_fetched (s : State) (n : Nat) : (s.fetched n).fetch8 = (s.stream n, s.fetched (n + 1)) := by
  rw [State.fetch8_eq, State.fetched_fetched]
  rfl

/-- `Fetch16` once `n` bytes of the instruction are fetched. -/
theorem State.fetch16_fetched (s : State) (n : Nat) :
    (s.fetched n).fetch16 = (wordOfBytes (s.stream n) (s.stream (n + 1)), s.fetched (n + 2)) := by
  simp only [State.fetch16, State.fetch8_fetched]

/-! ### The shifts -/

/-- A left shift is a product modulo 2^16 (R141). -/
theorem toNat_shiftLeft (v w : Word) : (shiftLeft v w).toNat = v.toNat * 2 ^ w.toNat % 65536 := by
  unfold shiftLeft
  split
  · rename_i h
    have e : 2 ^ w.toNat = 2 ^ (w.toNat - 16) * 65536 := by
      rw [show 65536 = 2 ^ 16 by norm_num, ← Nat.pow_add]
      congr 1
      omega
    rw [e, ← Nat.mul_assoc, Nat.mul_mod_left]
    rfl
  · rw [BitVec.toNat_shiftLeft, Nat.shiftLeft_eq]

/-- A right shift is a quotient (R142). -/
theorem toNat_shiftRight (v w : Word) : (shiftRight v w).toNat = v.toNat / 2 ^ w.toNat := by
  unfold shiftRight
  split
  · rename_i h
    rw [Nat.div_eq_of_lt (Nat.lt_of_lt_of_le v.isLt (Nat.pow_le_pow_right (by omega) h))]
    rfl
  · rw [BitVec.toNat_ushiftRight, Nat.shiftRight_eq_div_pow]

end Sys2Proof.Machine
end

