-- ==== Sys2Proof/Laws/PerInstr.lean ====
section
/-! SUPPORT. Laws of the instruction as syntax, one lemma per constructor. -/

namespace Sys2Proof.Laws.Layout

/-- The layout of an instruction (R70, R74, R78): one opcode byte and the operand bytes make up its length, which is 1 to
6; its encoder emits address mode 0 unless its format holds an address operand; and the default map assigns it an
opcode. -/
def Statement (i : Instr) : Prop :=
  i.length = 1 + i.operands.bytes.length ∧ 1 ≤ i.length ∧ i.length ≤ 6 ∧
    (i.opcode.format.hasAddr = false → i.operands.mode = false) ∧ i.WellFormed defaultOpcodeMap

/-- The default map holds every mnemonic (R80). -/
theorem mapped (o : Opcode) : o ∈ defaultOpcodeMap.map Prod.snd := by cases o <;> decide

theorem noop : Statement .noop :=
  ⟨rfl, Nat.le_of_ble_eq_true rfl, Nat.le_of_ble_eq_true rfl, fun _ => rfl, mapped _⟩

theorem add (a : Reg) (b : Reg) : Statement (.add a b) :=
  ⟨rfl, Nat.le_of_ble_eq_true rfl, Nat.le_of_ble_eq_true rfl, fun _ => rfl, mapped _⟩

theorem sub (a : Reg) (b : Reg) : Statement (.sub a b) :=
  ⟨rfl, Nat.le_of_ble_eq_true rfl, Nat.le_of_ble_eq_true rfl, fun _ => rfl, mapped _⟩

theorem mul (a : Reg) (b : Reg) : Statement (.mul a b) :=
  ⟨rfl, Nat.le_of_ble_eq_true rfl, Nat.le_of_ble_eq_true rfl, fun _ => rfl, mapped _⟩

theorem div (a : Reg) (b : Reg) : Statement (.div a b) :=
  ⟨rfl, Nat.le_of_ble_eq_true rfl, Nat.le_of_ble_eq_true rfl, fun _ => rfl, mapped _⟩

theorem addc (a : Reg) (w : Word) : Statement (.addc a w) :=
  ⟨rfl, Nat.le_of_ble_eq_true rfl, Nat.le_of_ble_eq_true rfl, fun _ => rfl, mapped _⟩

theorem subc (a : Reg) (w : Word) : Statement (.subc a w) :=
  ⟨rfl, Nat.le_of_ble_eq_true rfl, Nat.le_of_ble_eq_true rfl, fun _ => rfl, mapped _⟩

theorem mulc (a : Reg) (w : Word) : Statement (.mulc a w) :=
  ⟨rfl, Nat.le_of_ble_eq_true rfl, Nat.le_of_ble_eq_true rfl, fun _ => rfl, mapped _⟩

theorem divc (a : Reg) (w : Word) : Statement (.divc a w) :=
  ⟨rfl, Nat.le_of_ble_eq_true rfl, Nat.le_of_ble_eq_true rfl, fun _ => rfl, mapped _⟩

theorem ldr (a : Reg) (b : Reg) : Statement (.ldr a b) :=
  ⟨rfl, Nat.le_of_ble_eq_true rfl, Nat.le_of_ble_eq_true rfl, fun _ => rfl, mapped _⟩

theorem inc (a : Reg) : Statement (.inc a) :=
  ⟨rfl, Nat.le_of_ble_eq_true rfl, Nat.le_of_ble_eq_true rfl, fun _ => rfl, mapped _⟩

theorem dec (a : Reg) : Statement (.dec a) :=
  ⟨rfl, Nat.le_of_ble_eq_true rfl, Nat.le_of_ble_eq_true rfl, fun _ => rfl, mapped _⟩

theorem uxt (a : Reg) : Statement (.uxt a) :=
  ⟨rfl, Nat.le_of_ble_eq_true rfl, Nat.le_of_ble_eq_true rfl, fun _ => rfl, mapped _⟩

theorem lsl (a : Reg) (w : Word) : Statement (.lsl a w) :=
  ⟨rfl, Nat.le_of_ble_eq_true rfl, Nat.le_of_ble_eq_true rfl, fun _ => rfl, mapped _⟩

theorem lsr (a : Reg) (w : Word) : Statement (.lsr a w) :=
  ⟨rfl, Nat.le_of_ble_eq_true rfl, Nat.le_of_ble_eq_true rfl, fun _ => rfl, mapped _⟩

theorem ldc (a : Reg) (w : Word) : Statement (.ldc a w) :=
  ⟨rfl, Nat.le_of_ble_eq_true rfl, Nat.le_of_ble_eq_true rfl, fun _ => rfl, mapped _⟩

theorem ldm (a : Reg) (addr : AddrOperand) : Statement (.ldm a addr) := by
  cases addr <;> exact ⟨rfl, Nat.le_of_ble_eq_true rfl, Nat.le_of_ble_eq_true rfl, fun h => Bool.noConfusion h, mapped _⟩

theorem strm (a : Reg) (addr : AddrOperand) : Statement (.strm a addr) := by
  cases addr <;> exact ⟨rfl, Nat.le_of_ble_eq_true rfl, Nat.le_of_ble_eq_true rfl, fun h => Bool.noConfusion h, mapped _⟩

theorem stcm (w : Word) (addr : AddrOperand) : Statement (.stcm w addr) := by
  cases addr <;> exact ⟨rfl, Nat.le_of_ble_eq_true rfl, Nat.le_of_ble_eq_true rfl, fun h => Bool.noConfusion h, mapped _⟩

theorem jsr (addr : AddrOperand) : Statement (.jsr addr) := by
  cases addr <;> exact ⟨rfl, Nat.le_of_ble_eq_true rfl, Nat.le_of_ble_eq_true rfl, fun h => Bool.noConfusion h, mapped _⟩

theorem rtn : Statement .rtn :=
  ⟨rfl, Nat.le_of_ble_eq_true rfl, Nat.le_of_ble_eq_true rfl, fun _ => rfl, mapped _⟩

theorem jre (a : Reg) (w : Word) (addr : AddrOperand) : Statement (.jre a w addr) := by
  cases addr <;> exact ⟨rfl, Nat.le_of_ble_eq_true rfl, Nat.le_of_ble_eq_true rfl, fun h => Bool.noConfusion h, mapped _⟩

theorem jrn (a : Reg) (w : Word) (addr : AddrOperand) : Statement (.jrn a w addr) := by
  cases addr <;> exact ⟨rfl, Nat.le_of_ble_eq_true rfl, Nat.le_of_ble_eq_true rfl, fun h => Bool.noConfusion h, mapped _⟩

theorem jrg (a : Reg) (w : Word) (addr : AddrOperand) : Statement (.jrg a w addr) := by
  cases addr <;> exact ⟨rfl, Nat.le_of_ble_eq_true rfl, Nat.le_of_ble_eq_true rfl, fun h => Bool.noConfusion h, mapped _⟩

theorem jrge (a : Reg) (w : Word) (addr : AddrOperand) : Statement (.jrge a w addr) := by
  cases addr <;> exact ⟨rfl, Nat.le_of_ble_eq_true rfl, Nat.le_of_ble_eq_true rfl, fun h => Bool.noConfusion h, mapped _⟩

theorem jrl (a : Reg) (w : Word) (addr : AddrOperand) : Statement (.jrl a w addr) := by
  cases addr <;> exact ⟨rfl, Nat.le_of_ble_eq_true rfl, Nat.le_of_ble_eq_true rfl, fun h => Bool.noConfusion h, mapped _⟩

theorem jrle (a : Reg) (w : Word) (addr : AddrOperand) : Statement (.jrle a w addr) := by
  cases addr <;> exact ⟨rfl, Nat.le_of_ble_eq_true rfl, Nat.le_of_ble_eq_true rfl, fun h => Bool.noConfusion h, mapped _⟩

theorem jmp (addr : AddrOperand) : Statement (.jmp addr) := by
  cases addr <;> exact ⟨rfl, Nat.le_of_ble_eq_true rfl, Nat.le_of_ble_eq_true rfl, fun h => Bool.noConfusion h, mapped _⟩

theorem jrz (a : Reg) (addr : AddrOperand) : Statement (.jrz a addr) := by
  cases addr <;> exact ⟨rfl, Nat.le_of_ble_eq_true rfl, Nat.le_of_ble_eq_true rfl, fun h => Bool.noConfusion h, mapped _⟩

theorem push (a : Reg) : Statement (.push a) :=
  ⟨rfl, Nat.le_of_ble_eq_true rfl, Nat.le_of_ble_eq_true rfl, fun _ => rfl, mapped _⟩

theorem pushc (w : Word) : Statement (.pushc w) :=
  ⟨rfl, Nat.le_of_ble_eq_true rfl, Nat.le_of_ble_eq_true rfl, fun _ => rfl, mapped _⟩

theorem pop (a : Reg) : Statement (.pop a) :=
  ⟨rfl, Nat.le_of_ble_eq_true rfl, Nat.le_of_ble_eq_true rfl, fun _ => rfl, mapped _⟩

theorem pushs : Statement .pushs :=
  ⟨rfl, Nat.le_of_ble_eq_true rfl, Nat.le_of_ble_eq_true rfl, fun _ => rfl, mapped _⟩

theorem pops : Statement .pops :=
  ⟨rfl, Nat.le_of_ble_eq_true rfl, Nat.le_of_ble_eq_true rfl, fun _ => rfl, mapped _⟩

theorem sei : Statement .sei :=
  ⟨rfl, Nat.le_of_ble_eq_true rfl, Nat.le_of_ble_eq_true rfl, fun _ => rfl, mapped _⟩

theorem cli : Statement .cli :=
  ⟨rfl, Nat.le_of_ble_eq_true rfl, Nat.le_of_ble_eq_true rfl, fun _ => rfl, mapped _⟩

theorem reset : Statement .reset :=
  ⟨rfl, Nat.le_of_ble_eq_true rfl, Nat.le_of_ble_eq_true rfl, fun _ => rfl, mapped _⟩

theorem halt : Statement .halt :=
  ⟨rfl, Nat.le_of_ble_eq_true rfl, Nat.le_of_ble_eq_true rfl, fun _ => rfl, mapped _⟩

end Sys2Proof.Laws.Layout
end

