-- ==== Sys2Proof/Laws/Step.lean ====
section
/-! SUPPORT. What one pass of the loop can do, said once: where it stops, and the three ways it can answer a next
state. -/

namespace Sys2Proof.Machine

/-- Two states with the same registers and the same other fields are the same state. -/
theorem State.ext_of_reg {s t : State} (hreg : ∀ r, s.reg r = t.reg r) (hstatus : s.status = t.status)
    (hpending : s.pending = t.pending) (hhalted : s.halted = t.halted) (hfault : s.fault = t.fault)
    (hmem : s.mem = t.mem) (hcycles : s.cycles = t.cycles) : s = t := by
  obtain ⟨a0, a1, a2, a3, a4, a5, a6, a7, a8, a9, a10, a11, a12, a13⟩ := s
  obtain ⟨b0, b1, b2, b3, b4, b5, b6, b7, b8, b9, b10, b11, b12, b13⟩ := t
  have h0 : a0 = b0 := hreg .r0
  have h1 : a1 = b1 := hreg .r1
  have h2 : a2 = b2 := hreg .r2
  have h3 : a3 = b3 := hreg .r3
  have h4 : a4 = b4 := hreg .r4
  have h5 : a5 = b5 := hreg .r5
  have h6 : a6 = b6 := hreg .pc
  have h7 : a7 = b7 := hreg .sp
  simp only at hstatus hpending hhalted hfault hmem hcycles
  subst h0 h1 h2 h3 h4 h5 h6 h7 hstatus hpending hhalted hfault hmem hcycles
  rfl

/-- A core that is not running makes no step (R210, R224). -/
theorem stepWith_of_not_running (cfg : Config) (s : State) (h : ¬ s.Running) : ∃ r, stepWith cfg s = .fault r := by
  unfold stepWith
  cases hf : s.fault with
  | some record => exact ⟨_, rfl⟩
  | none =>
    cases hh : s.halted with
    | true => exact ⟨.halted, by simp⟩
    | false =>
      cases hb : s.budgetLeft with
      | false => exact ⟨.budgetExhausted, by simp⟩
      | true => exact absurd ⟨hf, hh, hb⟩ h

/-- A running core services the line it accepts (R213, R215). -/
theorem stepWith_service (cfg : Config) (s : State) (k : Fin 8) (h : s.Running) (hk : s.acceptedLine = some k) :
    stepWith cfg s = .next (s.service cfg.irqFrameOrder k) := by
  obtain ⟨hf, hh, hb⟩ := h
  simp [stepWith, hf, hh, hb, hk]

/-- A running core that accepts no line runs an instruction (R210, R213). -/
theorem stepWith_fetch (cfg : Config) (s : State) (h : s.Fetching) : stepWith cfg s = s.runInstr cfg := by
  obtain ⟨⟨hf, hh, hb⟩, hk⟩ := h
  simp [stepWith, hf, hh, hb, hk]

theorem runInstr_ok (cfg : Config) (s : State) (i : Instr) (h : decodeAt cfg s.stream = .ok i) :
    s.runInstr cfg = exec i s := by
  simp [State.runInstr, h]

theorem runInstr_error (cfg : Config) (s : State) (e : DecodeError) (h : decodeAt cfg s.stream = .error e) :
    s.runInstr cfg = .next (s.raise .illegalInstruction e.fetched) := by
  simp [State.runInstr, h]

/-- Everything a pass that answers a next state can have done (R210). -/
theorem stepWith_cases (cfg : Config) (s t : State) (h : stepWith cfg s = .next t) :
    s.Running ∧
      ((∃ k, s.acceptedLine = some k ∧ t = s.service cfg.irqFrameOrder k) ∨
        (s.acceptedLine = none ∧ ∃ i, decodeAt cfg s.stream = .ok i ∧ exec i s = .next t) ∨
        (s.acceptedLine = none ∧
          ∃ e, decodeAt cfg s.stream = .error e ∧ t = s.raise .illegalInstruction e.fetched)) := by
  by_cases hr : s.Running
  · refine ⟨hr, ?_⟩
    cases hk : s.acceptedLine with
    | some k =>
      rw [stepWith_service cfg s k hr hk] at h
      cases h
      exact .inl ⟨k, rfl, rfl⟩
    | none =>
      rw [stepWith_fetch cfg s ⟨hr, hk⟩] at h
      cases hd : decodeAt cfg s.stream with
      | ok i => exact .inr (.inl ⟨rfl, i, rfl, runInstr_ok cfg s i hd ▸ h⟩)
      | error e =>
        rw [runInstr_error cfg s e hd] at h
        cases h
        exact .inr (.inr ⟨rfl, e, rfl, rfl⟩)
  · obtain ⟨r, hr'⟩ := stepWith_of_not_running cfg s hr
    rw [hr'] at h
    cases h

/-- A running core always answers a next state: no step ends in the middle (R211, R224). -/
theorem stepWith_running (cfg : Config) (s : State) (h : s.Running) : ∃ t, stepWith cfg s = .next t := by
  cases hk : s.acceptedLine with
  | some k => exact ⟨_, stepWith_service cfg s k h hk⟩
  | none =>
    rw [stepWith_fetch cfg s ⟨h, hk⟩]
    cases hd : decodeAt cfg s.stream with
    | ok i => rw [runInstr_ok cfg s i hd]; exact exec_isNext i s
    | error e => exact ⟨_, runInstr_error cfg s e hd⟩

/-- A fetching core whose bytes decode runs what they decode to (R210). -/
theorem stepWith_of_decodeAt (cfg : Config) (s : State) (i : Instr) (h : s.Fetching)
    (hd : decodeAt cfg s.stream = .ok i) : stepWith cfg s = exec i s := by
  rw [stepWith_fetch cfg s h, runInstr_ok cfg s i hd]

/-- Nothing stands in the way of the next fetch (log 10). -/
theorem State.readyToFetch_fetching (s : State) : s.readyToFetch.Fetching := by
  refine ⟨⟨rfl, rfl, ?_⟩, ?_⟩
  · by_cases h : s.budgetLeft = true
    · have e : s.readyToFetch.cycles = s.cycles := if_pos h
      simp only [State.budgetLeft, e] at h ⊢
      exact h
    · have e : s.readyToFetch.cycles = none := if_neg h
      simp only [State.budgetLeft, e]
  · by_cases h : s.acceptedLine = none
    · have e : s.readyToFetch.pending = s.pending := if_pos h
      have e' : s.readyToFetch.status = s.status := rfl
      simp only [State.acceptedLine, e, e'] at h ⊢
      exact h
    · have e : s.readyToFetch.pending = 0 := if_neg h
      simp [State.acceptedLine, e, lowestMaskable]

/-- A core that is not running stays as it is, whatever the number of passes (R224). -/
theorem runLoop_of_not_running (cfg : Config) (n : Nat) (s : State) (h : ¬ s.Running) : runLoop cfg n s = s := by
  cases n with
  | zero => rfl
  | succ n =>
    obtain ⟨r, hr⟩ := stepWith_of_not_running cfg s h
    simp [runLoop, hr]

theorem runLoop_succ (cfg : Config) (n : Nat) (s t : State) (h : stepWith cfg s = .next t) :
    runLoop cfg (n + 1) s = runLoop cfg n t := by
  simp [runLoop, h]

/-- A call on a core that is not faulted (R210). -/
theorem executeWith_of_no_fault (cfg : Config) (budget : Int) (s : State) (h : s.fault = none) :
    executeWith cfg budget s =
      ((runLoop cfg budget.toNat { s with cycles := some budget }).endCall,
        (runLoop cfg budget.toNat { s with cycles := some budget }).outcome) := by
  unfold executeWith
  split
  · rename_i hf
    rw [h] at hf
    cases hf
  · rfl

/-- A call on a faulted core (R210). -/
theorem executeWith_of_fault (cfg : Config) (budget : Int) (s : State) (r : FaultRecord) (h : s.fault = some r) :
    executeWith cfg budget s = (s, s.outcome) := by
  unfold executeWith
  split
  · rfl
  · rename_i hf
    rw [h] at hf
    cases hf

end Sys2Proof.Machine
end

