-- ==== Sys2Proof/Tests/Slice0.lean ====
section
/-! SUPPORT. The model's own tests. The bytes of the decoding tests are written out from R73, R78 and R80; the single
steps are rows of spec/95_test_vectors.md, each under its number there; the witnesses show that the hypotheses of each
statement can be met. -/

namespace Sys2Proof.Tests

open Sys2Proof.Machine Sys2Proof.Statements

/-! ### Well-formedness: each check refuses an ill-formed term -/

/-- Two mnemonics under one number (R80). -/
theorem test_wf_number_twice : ¬ OpcodeMap.Valid [(0x00, .noop), (0x00, .halt)] := by decide

/-- One mnemonic under two numbers (R80). -/
theorem test_wf_mnemonic_twice : ¬ OpcodeMap.Valid [(0x00, .noop), (0x01, .noop)] := by decide

/-- An instruction outside the map (R81), which the encoder refuses too. -/
theorem test_wf_unmapped : ¬ Instr.WellFormed [(0x00, .noop)] (.pop .r1) ∧ encodeWith [(0x00, .noop)] (.pop .r1) = none := by
  decide

theorem test_wf_default_map : defaultOpcodeMap.Valid := by decide

/-- Memory out of canonical form: keys that do not rise, an entry of 0x00, a key at or above the size. -/
theorem test_wf_memory :
    Memory.wf ⟨65536, [(2, 1), (1, 1)]⟩ = false ∧ Memory.wf ⟨65536, [(1, 1), (1, 2)]⟩ = false ∧
      Memory.wf ⟨65536, [(1, 0)]⟩ = false ∧ Memory.wf ⟨65536, [(65536, 1)]⟩ = false ∧
      Memory.wf ⟨65535, [(65535, 1)]⟩ = false ∧ Memory.wf ⟨65536, [(0, 1), (65535, 1)]⟩ = true := by decide

/-- A size MEM_SIZE cannot take, and the two readings of the source (C1). -/
theorem test_wf_memSize :
    Memory.wf ⟨1, []⟩ = false ∧ Memory.wf ⟨65537, []⟩ = false ∧ Memory.wf ⟨65535, []⟩ = true ∧
      Memory.wf ⟨65536, []⟩ = true := by decide

/-! ### Decoding: bytes written out from R78 and R80, one per constructor and address mode -/

/-- The bytes decode to the instruction, and it encodes to them. -/
abbrev Reads (bytes : List Byte) (i : Instr) : Prop := decode bytes = .ok (i, []) ∧ encode i = bytes

theorem test_decode_control : Reads [0x00] .noop ∧ Reads [0x7E] .reset ∧ Reads [0x7F] .halt := by decide

theorem test_decode_arithmetic :
    Reads [0x01, 0x01, 0x02] (.add .r1 .r2) ∧ Reads [0x02, 0x00, 0x07] (.sub .r0 .sp) ∧
    Reads [0x03, 0x03, 0x04] (.mul .r3 .r4) ∧ Reads [0x04, 0x05, 0x06] (.div .r5 .pc) := by decide

theorem test_decode_arithmetic_word :
    Reads [0x05, 0x01, 0x04, 0x00] (.addc .r1 0x0004) ∧ Reads [0x06, 0x02, 0x34, 0x12] (.subc .r2 0x1234) ∧
    Reads [0x07, 0x06, 0xFF, 0x00] (.mulc .pc 0x00FF) ∧ Reads [0x08, 0x00, 0x00, 0x80] (.divc .r0 0x8000) := by decide

theorem test_decode_single :
    Reads [0x21, 0x00] (.inc .r0) ∧ Reads [0x22, 0x05] (.dec .r5) ∧ Reads [0x23, 0x07] (.uxt .sp) ∧
    Reads [0x24, 0x01, 0x04, 0x00] (.lsl .r1 0x0004) ∧ Reads [0x25, 0x01, 0x00, 0x04] (.lsr .r1 0x0400) := by decide

theorem test_decode_movement :
    Reads [0x20, 0x01, 0x02] (.ldr .r1 .r2) ∧ Reads [0x26, 0x01, 0x04, 0x00] (.ldc .r1 0x0004) ∧
    Reads [0x27, 0x01, 0x04, 0x00] (.ldm .r1 (.imm 0x0004)) ∧ Reads [0xA7, 0x01, 0x02] (.ldm .r1 (.ind .r2)) := by decide

theorem test_decode_stores :
    Reads [0x28, 0x01, 0x04, 0x00] (.strm .r1 (.imm 0x0004)) ∧ Reads [0xA8, 0x01, 0x02] (.strm .r1 (.ind .r2)) ∧
    Reads [0x29, 0xAA, 0x00, 0x00, 0x02] (.stcm 0x00AA (.imm 0x0200)) ∧
    Reads [0xA9, 0xAA, 0x00, 0x02] (.stcm 0x00AA (.ind .r2)) := by decide

theorem test_decode_jumps :
    Reads [0x40, 0x23, 0x01] (.jsr (.imm 0x0123)) ∧ Reads [0xC0, 0x07] (.jsr (.ind .sp)) ∧ Reads [0x41] .rtn ∧
    Reads [0x48, 0x00, 0x02] (.jmp (.imm 0x0200)) ∧ Reads [0xC8, 0x05] (.jmp (.ind .r5)) ∧
    Reads [0x49, 0x01, 0x00, 0x02] (.jrz .r1 (.imm 0x0200)) ∧ Reads [0xC9, 0x01, 0x02] (.jrz .r1 (.ind .r2)) := by decide

theorem test_decode_compare_immediate :
    Reads [0x42, 0x01, 0x05, 0x00, 0x00, 0x02] (.jre .r1 0x0005 (.imm 0x0200)) ∧
    Reads [0x43, 0x01, 0x05, 0x00, 0x00, 0x02] (.jrn .r1 0x0005 (.imm 0x0200)) ∧
    Reads [0x44, 0x01, 0x05, 0x00, 0x00, 0x02] (.jrg .r1 0x0005 (.imm 0x0200)) ∧
    Reads [0x45, 0x01, 0x05, 0x00, 0x00, 0x02] (.jrge .r1 0x0005 (.imm 0x0200)) ∧
    Reads [0x46, 0x01, 0x05, 0x00, 0x00, 0x02] (.jrl .r1 0x0005 (.imm 0x0200)) ∧
    Reads [0x47, 0x01, 0x05, 0x00, 0x00, 0x02] (.jrle .r1 0x0005 (.imm 0x0200)) := by decide

theorem test_decode_compare_indirect :
    Reads [0xC2, 0x01, 0x05, 0x00, 0x02] (.jre .r1 0x0005 (.ind .r2)) ∧
    Reads [0xC3, 0x01, 0x05, 0x00, 0x02] (.jrn .r1 0x0005 (.ind .r2)) ∧
    Reads [0xC4, 0x01, 0x05, 0x00, 0x02] (.jrg .r1 0x0005 (.ind .r2)) ∧
    Reads [0xC5, 0x01, 0x05, 0x00, 0x02] (.jrge .r1 0x0005 (.ind .r2)) ∧
    Reads [0xC6, 0x01, 0x05, 0x00, 0x02] (.jrl .r1 0x0005 (.ind .r2)) ∧
    Reads [0xC7, 0x01, 0x05, 0x00, 0x02] (.jrle .r1 0x0005 (.ind .r2)) := by decide

theorem test_decode_stack :
    Reads [0x60, 0x01] (.push .r1) ∧ Reads [0x61, 0xEF, 0xBE] (.pushc 0xBEEF) ∧ Reads [0x62, 0x07] (.pop .sp) ∧
    Reads [0x63] .pushs ∧ Reads [0x64] .pops ∧ Reads [0x65] .sei ∧ Reads [0x66] .cli := by decide

/-- Bit 7 is ignored without an address operand (R74), and the bytes after an instruction are left. -/
theorem test_decode_bit7_ignored :
    decode [0x80, 0x55] = .ok (.noop, [0x55]) ∧ decode [0xFF] = .ok (.halt, []) ∧
    decode [0xA1, 0x01] = .ok (.inc .r1, []) := by decide

/-- Each rejection, by its name (R75, R81). -/
theorem test_decode_rejects :
    decode [0x09] = .error .illegalOpcode ∧ decode [0xFD] = .error .illegalOpcode ∧
    decode [0x01, 0x08, 0x09] = .error (.illegalSelector 1) ∧ decode [0x01, 0x07, 0x08] = .error (.illegalSelector 2) ∧
    decode [0xA9, 0x08, 0x08, 0x08] = .error (.illegalSelector 3) ∧
    decode [0xC2, 0x01, 0x08, 0x08, 0x08] = .error (.illegalSelector 4) ∧
    decode [0x26, 0x01] = .error .truncated ∧ decode [] = .error .truncated := by decide

/-- The numbering of spec/opcode_table.json: the first byte lowest, the bits above the row's zero. -/
theorem test_decodeTableWord :
    decodeTableWord 24 0x020101 = some (.add .r1 .r2) ∧ decodeTableWord 8 0x48 = some (.jmp (.imm 0x0000)) ∧
    decodeTableWord 8 0x0248 = some (.jmp (.imm 0x0000)) ∧ decodeTableWord 16 0x0821 = none := by decide

/-! ### Single steps -/

/-- The reset state in a call with budget 1, `pc` set, and bytes stored from there on (the start state of
spec/95_test_vectors.md section 0). -/
def code (pc : Word) (bytes : List Byte) : State :=
  { State.reset with pc := pc, mem := Memory.writeBytes State.reset.mem pc.toNat bytes, cycles := some 1 }

def poke (s : State) (a : Nat) (b : Byte) : State := { s with mem := Memory.writeByte s.mem a b }

def maskConfig : Config := { standardConfig with selectorPolicy := .mask }

def pcFirstConfig : Config := { standardConfig with irqFrameOrder := .pcThenStatus }

/-- One step from `s` answers the state the row gives. -/
def becomes (cfg : Config) (s : State) (row : State → State) : Bool :=
  match stepWith cfg s with
  | .next t => decide (t = row s)
  | .fault _ => false
  | .refused _ => false

/-! ### Machine control -/

/-- V2: 40_machine_control.md rule R100; 30_encoding.md rule R74. -/
theorem test_noop_V2 :
    becomes standardConfig (code 0x0000 [0x80])
      (fun s => { s with pc := 0x0001, cycles := some 0 }) = true := by decide

/-- V6: 40_machine_control.md rule R101. -/
theorem test_reset_V6 :
    becomes standardConfig { poke (code 0x0010 [0x7E]) 0x0050 0x09 with
          r1 := 0x0005, sp := 0x0200, status := 0x03, pending := 0x03 }
      (fun s => { poke (poke s 0x0010 0x00) 0x0050 0x00 with
          r1 := 0x0000, pc := 0x0000, sp := 0x00A0, status := 0x00, pending := 0x00, cycles := some 0 }) = true := by decide

/-- V4: 40_machine_control.md rule R102; 30_encoding.md rule R74. -/
theorem test_halt_V4 :
    becomes standardConfig (code 0x0000 [0xFF])
      (fun s => { s with pc := 0x0001, halted := true, cycles := some 0 }) = true := by decide

/-! ### Arithmetic -/

/-- V12: 41_arithmetic.md rule R113. -/
theorem test_add_V12 :
    becomes standardConfig { code 0x0000 [0x01, 0x01, 0x02] with r1 := 0x8000, r2 := 0x8000 }
      (fun s => { s with r1 := 0x0000, pc := 0x0003, status := 0x62, cycles := some (-2) }) = true := by decide

/-- V15: 41_arithmetic.md rule R113. -/
theorem test_add_V15 :
    becomes standardConfig { code 0x0000 [0x01, 0x06, 0x01] with r1 := 0x0100 }
      (fun s => { s with pc := 0x0103, cycles := some (-2) }) = true := by decide

/-- V17: 41_arithmetic.md rule R114. -/
theorem test_sub_V17 :
    becomes standardConfig { code 0x0000 [0x02, 0x01, 0x02] with r1 := 0x0005, r2 := 0x0005, status := 0x43 }
      (fun s => { s with r1 := 0x0000, pc := 0x0003, status := 0x20, cycles := some (-2) }) = true := by decide

/-- V19: 41_arithmetic.md rule R114. -/
theorem test_sub_V19 :
    becomes standardConfig { code 0x0000 [0x02, 0x01, 0x02] with r1 := 0x0001, r2 := 0x8000 }
      (fun s => { s with r1 := 0x8001, pc := 0x0003, status := 0x43, cycles := some (-2) }) = true := by decide

/-- V21: 41_arithmetic.md rule R115. -/
theorem test_mul_V21 :
    becomes standardConfig { code 0x0000 [0x03, 0x01, 0x02] with r1 := 0xFFFF, r2 := 0xFFFF }
      (fun s => { s with r1 := 0x0001, pc := 0x0003, status := 0x40, cycles := some (-2) }) = true := by decide

/-- V23: 41_arithmetic.md rule R115. -/
theorem test_mul_V23 :
    becomes standardConfig { code 0x0000 [0x03, 0x01, 0x02] with r1 := 0x4000, r2 := 0x0002 }
      (fun s => { s with r1 := 0x8000, pc := 0x0003, status := 0x03, cycles := some (-2) }) = true := by decide

/-- V25: 41_arithmetic.md rule R116. -/
theorem test_div_V25 :
    becomes standardConfig { code 0x0000 [0x04, 0x01, 0x02] with r1 := 0xFFFF, r2 := 0x0001 }
      (fun s => { s with pc := 0x0003, status := 0x01, cycles := some (-2) }) = true := by decide

/-- V27: 41_arithmetic.md rule R116; 60_exceptions.md rule R232. -/
theorem test_div_V27 :
    becomes standardConfig { code 0x0000 [0x04, 0x01, 0x02] with r1 := 0x0007, r2 := 0x0000 }
      (fun s => { s with
          pc := 0x0003, fault := some ⟨.divByZero, 0x0000, 0x04⟩, cycles := some (-2) }) = true := by decide

/-- V28: 41_arithmetic.md rule R117. -/
theorem test_addc_V28 :
    becomes standardConfig { code 0x0000 [0x05, 0x01, 0xFF, 0xFF] with r1 := 0x0001 }
      (fun s => { s with r1 := 0x0000, pc := 0x0004, status := 0x60, cycles := some (-3) }) = true := by decide

/-- V29: 41_arithmetic.md rule R118. -/
theorem test_subc_V29 :
    becomes standardConfig { code 0x0000 [0x06, 0x01, 0x00, 0x80] with r1 := 0x0000 }
      (fun s => { s with r1 := 0x8000, pc := 0x0004, status := 0x43, cycles := some (-3) }) = true := by decide

/-- V30: 41_arithmetic.md rule R119. -/
theorem test_mulc_V30 :
    becomes standardConfig { code 0x0000 [0x07, 0x01, 0x03, 0x00] with r1 := 0x5556 }
      (fun s => { s with r1 := 0x0002, pc := 0x0004, status := 0x42, cycles := some (-3) }) = true := by decide

/-- V31: 41_arithmetic.md rule R120. -/
theorem test_divc_V31 :
    becomes standardConfig { code 0x0000 [0x08, 0x01, 0x10, 0x00] with r1 := 0xFFFF }
      (fun s => { s with r1 := 0x0FFF, pc := 0x0004, cycles := some (-3) }) = true := by decide

/-- V32: 41_arithmetic.md rule R120; 60_exceptions.md rule R232. -/
theorem test_divc_V32 :
    becomes standardConfig { code 0x0000 [0x08, 0x01, 0x00, 0x00] with r1 := 0x0005 }
      (fun s => { s with
          pc := 0x0004, fault := some ⟨.divByZero, 0x0000, 0x08⟩, cycles := some (-3) }) = true := by decide

/-- V34: 41_arithmetic.md rule R121. -/
theorem test_inc_V34 :
    becomes standardConfig { code 0x0000 [0x21, 0x01] with r1 := 0x7FFF }
      (fun s => { s with r1 := 0x8000, pc := 0x0002, status := 0x03, cycles := some (-1) }) = true := by decide

/-- V37: 41_arithmetic.md rule R122. -/
theorem test_dec_V37 :
    becomes standardConfig { code 0x0000 [0x22, 0x01] with r1 := 0x0001, status := 0x10 }
      (fun s => { s with r1 := 0x0000, pc := 0x0002, status := 0x30, cycles := some (-1) }) = true := by decide

/-! ### Logical and shift -/

/-- V40: 42_logical.md rule R140. -/
theorem test_uxt_V40 :
    becomes standardConfig { code 0x0000 [0x23, 0x01] with r1 := 0x1234, status := 0x60 }
      (fun s => { s with r1 := 0x0034, pc := 0x0002, cycles := some (-1) }) = true := by decide

/-- V44: 42_logical.md rule R141. -/
theorem test_lsl_V44 :
    becomes standardConfig { code 0x0000 [0x24, 0x01, 0x0F, 0x00] with r1 := 0x0001 }
      (fun s => { s with r1 := 0x8000, pc := 0x0004, cycles := some (-3) }) = true := by decide

/-- V46: 42_logical.md rule R141. -/
theorem test_lsl_V46 :
    becomes standardConfig { code 0x0000 [0x24, 0x01, 0xFF, 0xFF] with r1 := 0xFFFF, status := 0x20 }
      (fun s => { s with r1 := 0x0000, pc := 0x0004, cycles := some (-3) }) = true := by decide

/-- V48: 42_logical.md rule R142. -/
theorem test_lsr_V48 :
    becomes standardConfig { code 0x0000 [0x25, 0x01, 0x01, 0x00] with r1 := 0x8001 }
      (fun s => { s with r1 := 0x4000, pc := 0x0004, cycles := some (-3) }) = true := by decide

/-- V49: 42_logical.md rule R142. -/
theorem test_lsr_V49 :
    becomes standardConfig { code 0x0000 [0x25, 0x01, 0x10, 0x00] with r1 := 0xFFFF }
      (fun s => { s with r1 := 0x0000, pc := 0x0004, cycles := some (-3) }) = true := by decide

/-! ### Data movement -/

/-- V51: 43_data_movement.md rule R150; 10_state.md rule R25. -/
theorem test_ldr_V51 :
    becomes standardConfig (code 0x0000 [0x20, 0x01, 0x06])
      (fun s => { s with r1 := 0x0003, pc := 0x0003, cycles := some (-2) }) = true := by decide

/-- V52: 43_data_movement.md rule R150. -/
theorem test_ldr_V52 :
    becomes standardConfig { code 0x0000 [0x20, 0x06, 0x01] with r1 := 0x0100 }
      (fun s => { s with pc := 0x0100, cycles := some (-2) }) = true := by decide

/-- V54: 43_data_movement.md rule R151. -/
theorem test_ldc_V54 :
    becomes standardConfig (code 0x0000 [0x26, 0x07, 0x00, 0x02])
      (fun s => { s with pc := 0x0004, sp := 0x0200, cycles := some (-3) }) = true := by decide

/-- V56: 43_data_movement.md rule R152. -/
theorem test_ldm_V56 :
    becomes standardConfig { poke (poke (code 0x0000 [0xA7, 0x01, 0x02]) 0x0200 0x34) 0x0201 0x12 with r2 := 0x0200 }
      (fun s => { s with r1 := 0x1234, pc := 0x0003, cycles := some (-4) }) = true := by decide

/-- V57: 43_data_movement.md rule R152; 20_memory.md rule R54. -/
theorem test_ldm_V57 :
    becomes standardConfig (poke (code 0x0000 [0x27, 0x01, 0xFF, 0xFF]) 0xFFFF 0xCD)
      (fun s => { s with r1 := 0x27CD, pc := 0x0004, cycles := some (-5) }) = true := by decide

/-- V59: 43_data_movement.md rule R153. -/
theorem test_strm_V59 :
    becomes standardConfig { code 0x0000 [0xA8, 0x01, 0x02] with r1 := 0xBEEF, r2 := 0x0200 }
      (fun s => { poke (poke s 0x0200 0xEF) 0x0201 0xBE with pc := 0x0003, cycles := some (-4) }) = true := by decide

/-- V60: 43_data_movement.md rule R153; 20_memory.md rule R54. -/
theorem test_strm_V60 :
    becomes standardConfig { code 0x0000 [0x28, 0x01, 0xFF, 0xFF] with r1 := 0xBEEF }
      (fun s => { poke (poke s 0x0000 0xBE) 0xFFFF 0xEF with pc := 0x0004, cycles := some (-5) }) = true := by decide

/-- V61: 43_data_movement.md rule R154. -/
theorem test_stcm_V61 :
    becomes standardConfig (code 0x0000 [0x29, 0xAA, 0x00, 0x00, 0x02])
      (fun s => { poke s 0x0200 0xAA with pc := 0x0005, cycles := some (-6) }) = true := by decide

/-- V62: 43_data_movement.md rule R154. -/
theorem test_stcm_V62 :
    becomes standardConfig { code 0x0000 [0xA9, 0xAA, 0x00, 0x02] with r2 := 0x0200 }
      (fun s => { poke s 0x0200 0xAA with pc := 0x0004, cycles := some (-5) }) = true := by decide

/-! ### Control transfer -/

/-- V70: 44_control_transfer.md rule R170. -/
theorem test_jmp_V70 :
    becomes standardConfig (code 0x0000 [0x48, 0x00, 0x02])
      (fun s => { s with pc := 0x0200, cycles := some (-2) }) = true := by decide

/-- V71: 44_control_transfer.md rule R170. -/
theorem test_jmp_V71 :
    becomes standardConfig { code 0x0000 [0xC8, 0x01] with r1 := 0x0300 }
      (fun s => { s with pc := 0x0300, cycles := some (-1) }) = true := by decide

/-- V73: 44_control_transfer.md rule R171. -/
theorem test_jrz_V73 :
    becomes standardConfig { code 0x0000 [0x49, 0x01, 0x00, 0x02] with r1 := 0x0001 }
      (fun s => { s with pc := 0x0004, cycles := some (-3) }) = true := by decide

/-- V74: 44_control_transfer.md rule R171. -/
theorem test_jrz_V74 :
    becomes standardConfig { code 0x0000 [0xC9, 0x01, 0x02] with r1 := 0x0000, r2 := 0x0300 }
      (fun s => { s with pc := 0x0300, cycles := some (-2) }) = true := by decide

/-- V75: 44_control_transfer.md rule R173. -/
theorem test_jre_V75 :
    becomes standardConfig { code 0x0000 [0x42, 0x01, 0x05, 0x00, 0x00, 0x02] with r1 := 0x0005 }
      (fun s => { s with pc := 0x0200, cycles := some (-5) }) = true := by decide

/-- V76: 44_control_transfer.md rule R173. -/
theorem test_jre_V76 :
    becomes standardConfig { code 0x0000 [0x42, 0x01, 0x05, 0x00, 0x00, 0x02] with r1 := 0x0006 }
      (fun s => { s with pc := 0x0006, cycles := some (-5) }) = true := by decide

/-- V77: 44_control_transfer.md rule R174. -/
theorem test_jrn_V77 :
    becomes standardConfig { code 0x0000 [0x43, 0x01, 0x05, 0x00, 0x00, 0x02] with r1 := 0x0006 }
      (fun s => { s with pc := 0x0200, cycles := some (-5) }) = true := by decide

/-- V78: 44_control_transfer.md rule R174. -/
theorem test_jrn_V78 :
    becomes standardConfig { code 0x0000 [0x43, 0x01, 0x05, 0x00, 0x00, 0x02] with r1 := 0x0005 }
      (fun s => { s with pc := 0x0006, cycles := some (-5) }) = true := by decide

/-- V79: 44_control_transfer.md rule R175. -/
theorem test_jrg_V79 :
    becomes standardConfig { code 0x0000 [0x44, 0x01, 0x01, 0x00, 0x00, 0x02] with r1 := 0xFFFF }
      (fun s => { s with pc := 0x0200, cycles := some (-5) }) = true := by decide

/-- V80: 44_control_transfer.md rule R175. -/
theorem test_jrg_V80 :
    becomes standardConfig { code 0x0000 [0x44, 0x01, 0x01, 0x00, 0x00, 0x02] with r1 := 0x0001 }
      (fun s => { s with pc := 0x0006, cycles := some (-5) }) = true := by decide

/-- V81: 44_control_transfer.md rule R176. -/
theorem test_jrge_V81 :
    becomes standardConfig { code 0x0000 [0x45, 0x01, 0x01, 0x00, 0x00, 0x02] with r1 := 0x0001 }
      (fun s => { s with pc := 0x0200, cycles := some (-5) }) = true := by decide

/-- V82: 44_control_transfer.md rule R176. -/
theorem test_jrge_V82 :
    becomes standardConfig { code 0x0000 [0x45, 0x01, 0x01, 0x00, 0x00, 0x02] with r1 := 0x0000 }
      (fun s => { s with pc := 0x0006, cycles := some (-5) }) = true := by decide

/-- V83: 44_control_transfer.md rule R177. -/
theorem test_jrl_V83 :
    becomes standardConfig { code 0x0000 [0x46, 0x01, 0x00, 0x80, 0x00, 0x02] with r1 := 0x7FFF }
      (fun s => { s with pc := 0x0200, cycles := some (-5) }) = true := by decide

/-- V84: 44_control_transfer.md rule R177. -/
theorem test_jrl_V84 :
    becomes standardConfig { code 0x0000 [0x46, 0x01, 0x00, 0x00, 0x00, 0x02] with r1 := 0xFFFF }
      (fun s => { s with pc := 0x0006, cycles := some (-5) }) = true := by decide

/-- V85: 44_control_transfer.md rule R178. -/
theorem test_jrle_V85 :
    becomes standardConfig { code 0x0000 [0xC7, 0x01, 0x00, 0x00, 0x02] with r1 := 0x0000, r2 := 0x0300 }
      (fun s => { s with pc := 0x0300, cycles := some (-4) }) = true := by decide

/-- V86: 44_control_transfer.md rule R178. -/
theorem test_jrle_V86 :
    becomes standardConfig { code 0x0000 [0xC7, 0x01, 0x00, 0x00, 0x02] with r1 := 0x0001, r2 := 0x0300 }
      (fun s => { s with pc := 0x0005, cycles := some (-4) }) = true := by decide

/-- V87: 44_control_transfer.md rule R179. -/
theorem test_jsr_V87 :
    becomes standardConfig (code 0x000A [0x40, 0xA1, 0x00])
      (fun s => { poke s 0x009E 0x0D with pc := 0x00A1, sp := 0x009E, cycles := some (-4) }) = true := by decide

/-- V89: 44_control_transfer.md rule R179. -/
theorem test_jsr_V89 :
    becomes standardConfig (code 0x0000 [0xC0, 0x07])
      (fun s => { poke s 0x009E 0x02 with pc := 0x00A0, sp := 0x009E, cycles := some (-3) }) = true := by decide

/-- V90: 44_control_transfer.md rule R180. -/
theorem test_rtn_V90 :
    becomes standardConfig { poke (code 0x00A5 [0x41]) 0x009E 0x0D with sp := 0x009E }
      (fun s => { s with pc := 0x000D, sp := 0x00A0, cycles := some (-2) }) = true := by decide

/-! ### Stack and status -/

/-- V101: 45_stack_and_status.md rule R190. -/
theorem test_push_V101 :
    becomes standardConfig (code 0x0000 [0x60, 0x07])
      (fun s => { poke s 0x009E 0xA0 with pc := 0x0002, sp := 0x009E, cycles := some (-3) }) = true := by decide

/-- V102: 45_stack_and_status.md rule R190. -/
theorem test_push_V102 :
    becomes standardConfig { code 0x0010 [0x60, 0x01] with r1 := 0xBEEF, sp := 0x0001 }
      (fun s => { poke (poke s 0x0000 0xBE) 0xFFFF 0xEF with
          pc := 0x0012, sp := 0xFFFF, cycles := some (-3) }) = true := by decide

/-- V103: 45_stack_and_status.md rule R191. -/
theorem test_pushc_V103 :
    becomes standardConfig (code 0x0000 [0x61, 0xEF, 0xBE])
      (fun s => { poke (poke s 0x009E 0xEF) 0x009F 0xBE with
          pc := 0x0003, sp := 0x009E, cycles := some (-4) }) = true := by decide

/-- V105: 45_stack_and_status.md rule R192. -/
theorem test_pop_V105 :
    becomes standardConfig { poke (poke (code 0x0000 [0x62, 0x07]) 0x009E 0x34) 0x009F 0x12 with sp := 0x009E }
      (fun s => { s with pc := 0x0002, sp := 0x1234, cycles := some (-3) }) = true := by decide

/-- V106: 45_stack_and_status.md rule R192. -/
theorem test_pop_V106 :
    becomes standardConfig { poke (code 0x0000 [0x62, 0x06]) 0x009F 0x03 with sp := 0x009E }
      (fun s => { s with pc := 0x0300, sp := 0x00A0, cycles := some (-3) }) = true := by decide

/-- V107: 45_stack_and_status.md rule R193. -/
theorem test_pushs_V107 :
    becomes standardConfig { code 0x0000 [0x63] with status := 0x52 }
      (fun s => { poke s 0x009E 0x52 with pc := 0x0001, sp := 0x009E, cycles := some (-2) }) = true := by decide

/-- V108: 45_stack_and_status.md rule R194. -/
theorem test_pops_V108 :
    becomes standardConfig { poke (poke (code 0x0000 [0x64]) 0x009E 0x10) 0x009F 0xFF with sp := 0x009E }
      (fun s => { s with pc := 0x0001, sp := 0x00A0, status := 0x10, cycles := some (-2) }) = true := by decide

/-- V109: 45_stack_and_status.md rule R195. -/
theorem test_sei_V109 :
    becomes standardConfig (code 0x0000 [0x65])
      (fun s => { s with pc := 0x0001, status := 0x10, cycles := some 0 }) = true := by decide

/-- V110: 45_stack_and_status.md rule R196. -/
theorem test_cli_V110 :
    becomes standardConfig { code 0x0000 [0x66] with status := 0x73 }
      (fun s => { s with pc := 0x0001, status := 0x63, cycles := some 0 }) = true := by decide

/-! ### Interrupts -/

/-- V120: 60_exceptions.md rule R215. -/
theorem test_service_V120 :
    becomes standardConfig { poke (code 0x0050 [0x00]) 0xFFF1 0x01 with status := 0x13, pending := 0x01 }
      (fun s => { poke (poke s 0x009C 0x50) 0x009E 0x13 with
          pc := 0x0100, sp := 0x009C, status := 0x03, pending := 0x00, cycles := some (-5) }) = true := by decide

/-- V121: 60_exceptions.md rule R215; 60_exceptions.md rule R216. -/
theorem test_service_other_order_V121 :
    becomes pcFirstConfig { poke (code 0x0050 [0x00]) 0xFFF1 0x01 with status := 0x13, pending := 0x01 }
      (fun s => { poke (poke s 0x009C 0x13) 0x009E 0x50 with
          pc := 0x0100, sp := 0x009C, status := 0x03, pending := 0x00, cycles := some (-5) }) = true := by decide

/-- V122: 60_exceptions.md rule R214. -/
theorem test_service_lowest_V122 :
    becomes standardConfig { poke (poke (code 0x0000 [0x00]) 0xFFF3 0x02) 0xFFF5 0x03 with
          status := 0x10, pending := 0x06 }
      (fun s => { poke s 0x009E 0x10 with
          pc := 0x0200, sp := 0x009C, status := 0x00, pending := 0x04, cycles := some (-5) }) = true := by decide

/-- V125: 60_exceptions.md rule R214. -/
theorem test_service_inm_V125 :
    becomes standardConfig { poke (poke (code 0x0000 [0x00]) 0xFFFF 0x04) 0xFFF1 0x01 with
          status := 0x10, pending := 0x81 }
      (fun s => { poke s 0x009E 0x10 with
          pc := 0x0400, sp := 0x009C, status := 0x00, pending := 0x01, cycles := some (-5) }) = true := by decide

/-! ### Faults -/

/-- V131: 30_encoding.md rule R81; 60_exceptions.md rule R231. -/
theorem test_illegal_opcode_V131 :
    becomes standardConfig { code 0x0000 [0x89] with r1 := 0x0001 }
      (fun s => { s with
          pc := 0x0001, fault := some ⟨.illegalInstruction, 0x0000, 0x89⟩, cycles := some 0 }) = true := by decide

/-- V132: 30_encoding.md rule R75; 60_exceptions.md rule R231. -/
theorem test_illegal_selector_V132 :
    becomes standardConfig (code 0x0000 [0x21, 0x08])
      (fun s => { s with
          pc := 0x0002, fault := some ⟨.illegalInstruction, 0x0000, 0x21⟩, cycles := some (-1) }) = true := by decide

/-- V133: 30_encoding.md rule R75. -/
theorem test_selector_mask_V133 :
    becomes maskConfig (code 0x0000 [0x21, 0x08])
      (fun s => { s with r0 := 0x0001, pc := 0x0002, cycles := some (-1) }) = true := by decide

/-- V135: 60_exceptions.md rule R233. -/
theorem test_selector_before_zero_V135 :
    becomes standardConfig { code 0x0000 [0x04, 0x01, 0x09] with r2 := 0x0000 }
      (fun s => { s with
          pc := 0x0003, fault := some ⟨.illegalInstruction, 0x0000, 0x04⟩, cycles := some (-2) }) = true := by decide

/-- V136: 30_encoding.md rule R75; 60_exceptions.md rule R231. -/
theorem test_selector_indirect_V136 :
    becomes standardConfig (code 0x0000 [0xA7, 0x01, 0x08])
      (fun s => { s with
          pc := 0x0003, fault := some ⟨.illegalInstruction, 0x0000, 0xA7⟩, cycles := some (-2) }) = true := by decide

/-! ### MEM_SIZE (R50, R52, D1) -/

/-- With 65536 bytes a word at 0xFFFF has its high byte at 0x0000; with 65535, address 0xFFFF is byte 0 and the high byte
of the word is byte 1, and the high byte of the INM vector is byte 0 (C1). -/
theorem test_memSize_read :
    Memory.readWord ⟨65536, [(0, 0x22), (1, 0x33), (65535, 0x11)]⟩ 0xFFFF = 0x2211 ∧
    Memory.readWord ⟨65535, [(0, 0x22), (1, 0x33)]⟩ 0xFFFF = 0x3322 ∧
    Memory.readWord ⟨65535, [(0, 0x22), (65534, 0x11)]⟩ (vectorAddr 7) = 0x2211 := by decide

theorem test_memSize_write :
    Memory.writeWord ⟨65536, []⟩ 0xFFFF 0x2211 = ⟨65536, [(0, 0x22), (65535, 0x11)]⟩ ∧
    Memory.writeWord ⟨65535, []⟩ 0xFFFF 0x2211 = ⟨65535, [(0, 0x11), (1, 0x22)]⟩ := by decide

/-- `pc` wraps modulo 2^16 whatever MEM_SIZE is (R24): with 65535 bytes the byte fetched at 0xFFFF is byte 0, and so is the
next one. -/
theorem test_memSize_fetch :
    becomes standardConfig { State.resetOf 65535 with pc := 0xFFFF, r1 := 7, mem := ⟨65535, [(0, 0x23), (1, 0x01)]⟩ }
      (fun s => { s with pc := 0x0001, fault := some ⟨.illegalInstruction, 0xFFFF, 0x23⟩ }) = true := by decide

/-- Reset zeroes the array and keeps its length; `create` takes the length as an argument, 65536 by default. -/
theorem test_memSize_kept :
    (State.resetCore { State.resetOf 65535 with mem := ⟨65535, [(3, 4)]⟩ }).mem = ⟨65535, []⟩ ∧
    create { standardConfig with memSize := 65535 } = State.resetOf 65535 ∧ create standardConfig = State.reset := by decide

/-! ### Runs and loading -/

/-- V141: a budget of -3 runs nothing and reports an overrun. -/
theorem test_budget_V141 : execute (-3) State.reset = (State.reset, ⟨.budgetExhausted, some (-3), true⟩) := by decide

/-- A placed word is the next instruction, from reset and from a core that a halt, a fault, a line and a used-up budget
stand in the way of (log 10). -/
theorem test_withFetchWord :
    becomes standardConfig (State.reset.withFetchWord 16 0x0121) (fun s => { s with r1 := 1, pc := 2 }) = true ∧
    becomes standardConfig
      (({ code 0xFFFF [] with
          halted := true, pending := 0x80, fault := some ⟨.divByZero, 0, 4⟩, cycles := some 0 } : State).withFetchWord
        16 0x0121)
      (fun s => { s with r1 := 1, pc := 1 }) = true := by decide

/-! ### Witnesses: the hypotheses of each statement can be met -/

/-- A fetching state at the bytes; used below. -/
abbrev FetchesAt (s : State) (first : Byte) : Prop := s.Fetching ∧ s.stream 0 = first

/-- A map other than the default, in which ADD is well-formed. -/
theorem witness_DecodeOfEncodeIsIdentity :
    OpcodeMap.Valid [(0x7F, .add), (0x00, .stcm)] ∧ (Instr.add .r1 .r2).WellFormed [(0x7F, .add), (0x00, .stcm)] := by decide

theorem witness_EncodeOfDecodeIsTheBytes :
    decode [0x80, 0x55] = .ok (.noop, [0x55]) ∧ decode [0xC8, 0x03] = .ok (.jmp (.ind .r3), []) ∧
    Format.hasAddr (Instr.jmp (.ind .r3)).opcode.format = true := by decide

/-- Both clauses: an opcode byte without an address operand, and one with it, whose two forms decode. -/
theorem witness_ModeBitIgnoredWithoutAddressOperand :
    (opField 0x01 = opField 0x81 ∧ standardConfig.opcodeMap.opcodeOf (opField 0x01) = some .add ∧
      Opcode.add.format.hasAddr = false) ∧
    (opField 0x48 = opField 0xC8 ∧ standardConfig.opcodeMap.opcodeOf (opField 0x48) = some .jmp ∧
      Opcode.jmp.format.hasAddr = true ∧ modeBit 0x48 = false ∧ modeBit 0xC8 = true ∧
      decode [0x48, 0x03, 0x00] = .ok (.jmp (.imm 0x0003), []) ∧
      decode [0xC8, 0x03, 0x00] = .ok (.jmp (.ind .r3), [0x00])) := by decide

/-- Both ends of the four illegal ranges, with bit 7 clear and set. -/
theorem witness_IllegalOpcodesRaiseAfterOneByte :
    ∀ b ∈ ([0x09, 0x1F, 0x2A, 0x3F, 0x4A, 0x5F, 0x67, 0x7D, 0x89, 0xFD] : List Byte),
      FetchesAt (code 0x0000 [b]) b ∧ ¬ b.toNat % 128 ≤ 8 ∧ ¬ 126 ≤ b.toNat % 128 := by decide

/-- Both ends of the five legal ranges. -/
theorem witness_IllegalOpcodesRaiseAfterOneByte_legal :
    ∀ b ∈ ([0x00, 0x08, 0x20, 0x29, 0x40, 0x49, 0x60, 0x66, 0x7E, 0xFF] : List Byte),
      FetchesAt (code 0x0000 [b]) b := by decide

/-- A first illegal selector, 0x08 or 0xFF, at each position a selector can have. -/
theorem witness_FirstIllegalSelectorRaises :
    (FetchesAt (code 0x0000 [0x01, 0x08, 0x09]) 0x01 ∧ FetchesAt (code 0x0000 [0x01, 0x07, 0x08]) 0x01 ∧
      FetchesAt (code 0x0000 [0xA9, 0x08, 0x08, 0xFF]) 0xA9 ∧ FetchesAt (code 0x0000 [0xC2, 0x07, 0x08, 0x08, 0xFF]) 0xC2) ∧
    defaultOpcodeMap.opcodeOf (opField 0x01) = some .add ∧ defaultOpcodeMap.opcodeOf (opField 0xA9) = some .stcm ∧
    defaultOpcodeMap.opcodeOf (opField 0xC2) = some .jre ∧
    [1, 2].find? (fun j => decide (7 < ((code 0x0000 [0x01, 0x08, 0x09]).stream j).toNat)) = some 1 ∧
    [1, 2].find? (fun j => decide (7 < ((code 0x0000 [0x01, 0x07, 0x08]).stream j).toNat)) = some 2 ∧
    [3].find? (fun j => decide (7 < ((code 0x0000 [0xA9, 0x08, 0x08, 0xFF]).stream j).toNat)) = some 3 ∧
    [1, 4].find? (fun j => decide (7 < ((code 0x0000 [0xC2, 0x07, 0x08, 0x08, 0xFF]).stream j).toNat)) = some 4 := by
  decide

/-- No illegal selector: the greatest legal value in every position. -/
theorem witness_FirstIllegalSelectorRaises_none :
    FetchesAt (code 0x0000 [0xC2, 0x07, 0x08, 0x08, 0x07]) 0xC2 ∧
    ∀ j ∈ selectorPositions .frwa true, ((code 0x0000 [0xC2, 0x07, 0x08, 0x08, 0x07]).stream j).toNat ≤ 7 := by decide

theorem witness_StepRunsTheDecodedInstruction :
    (code 0xFFFE [0x26, 0x01, 0x34, 0x12]).Fetching ∧
    decode [0x26, 0x01, 0x34, 0x12, 0x00, 0x00] = .ok (.ldc .r1 0x1234, [0x00, 0x00]) ∧
    (code 0xFFFE [0x26, 0x01, 0x34, 0x12]).stream 3 = 0x12 := by decide

/-- The default size, at both ends of the address space, and a size of 65535 at the last place that holds six bytes. -/
theorem witness_PlacedWordRunsNext :
    Memory.wf (code 0x0000 [0x7F]).mem = true ∧ StreamApart (code 0x0000 [0x7F]).mem.size (code 0x0000 [0x7F]).pc 6 ∧
    StreamApart State.reset.mem.size 0xFFFF 6 ∧ State.reset.mem.size = 65536 ∧
    Memory.wf (State.resetOf 65535).mem = true ∧ StreamApart (State.resetOf 65535).mem.size 0xFFF9 6 ∧
    decodeTableWord 24 0x020101 = some (.add .r1 .r2) := by decide

/-- Canonical memories, empty and with both ends of the address space; for every statement about a state whose memory is
canonical. -/
theorem witness_canonical_memory :
    Memory.wf State.reset.mem = true ∧ Memory.wf (poke (code 0x0000 [0x60]) 0xFFFF 0x01).mem = true ∧
    Memory.wf (State.resetOf 65535).mem = true := by decide

theorem witness_CanonicalMemoriesThatReadAlikeAreEqual :
    ∃ m m' : Memory, Memory.wf m = true ∧ Memory.wf m' = true ∧ m.size = m'.size ∧
      ∀ a : Word, Memory.readByte m a.toNat = Memory.readByte m' a.toNat :=
  ⟨Memory.writeByte ⟨65536, [(1, 1)]⟩ 0 2, Memory.writeByte ⟨65536, [(0, 2)]⟩ 1 1, by decide, by decide, rfl, fun _ => rfl⟩

/-- The state after a JSR is itself a state at the RTN with the stack balanced. -/
theorem witness_ReturnGoesPastTheCall :
    ∃ t t' : State, exec (.jsr (.imm 0x00A1)) State.reset = .next t ∧ t'.sp = t.sp ∧ wordIn t' t'.sp = wordIn t t.sp :=
  ⟨_, _, rfl, rfl, rfl⟩

theorem witness_NoopOnlyAdvancesAndZerosSlide :
    (FetchesAt (code 0x0000 [0x00]) 0x00 ∧ OpcodeByte 0 0x00) ∧ (FetchesAt (code 0x0000 [0x80]) 0x80 ∧ OpcodeByte 0 0x80) ∧
    State.Fetching { State.reset with pc := 0xFFFF, cycles := some 2 } ∧
    (∀ k, k < 2 → State.stream { State.reset with pc := 0xFFFF, cycles := some 2 } k = 0) ∧
    ∀ c, (some 2 : Option Int) = some c → ((2 : Nat) : Int) ≤ c :=
  ⟨⟨by decide, .inl rfl⟩, ⟨by decide, .inr rfl⟩, by decide, by decide, fun c h => by cases h; decide⟩

theorem witness_ResetStateHasTheSpecifiedValues :
    State.Idle { State.reset with r1 := 5, halted := true } ∧ standardConfig.memSize = 65536 ∧
    (State.resetOf 65535).mem.size = ({ standardConfig with memSize := 65535 } : Config).memSize := by decide

theorem witness_HaltStopsTheCore :
    (FetchesAt (code 0x0000 [0x7F]) 0x7F ∧ OpcodeByte 0x7F 0x7F) ∧ (FetchesAt (code 0x0000 [0xFF]) 0xFF ∧ OpcodeByte 0x7F 0xFF) ∧
    State.Idle { State.reset with halted := true, pending := 0x80 } :=
  ⟨⟨by decide, .inl rfl⟩, ⟨by decide, .inr rfl⟩, by decide⟩

/-- The least divisor that is not zero, and zero, each also read from `R6`. -/
theorem witness_DivFamilyWritesQuotientAndFlags :
    valueAt { State.reset with r2 := 1 } 3 .r2 ≠ 0 ∧ valueAt State.reset 3 .pc ≠ 0 ∧ (1 : Word) ≠ 0 := by decide

theorem witness_ZeroDivisorRaisesAndStops :
    valueAt State.reset 3 .r2 = 0 ∧ valueAt { State.reset with pc := 0xFFFD } 3 .pc = 0 := by decide

theorem witness_RtnPopsThePc :
    (FetchesAt (code 0x0000 [0x41]) 0x41 ∧ OpcodeByte 0x41 0x41) ∧ FetchesAt (code 0x0000 [0xC1]) 0xC1 ∧ OpcodeByte 0x41 0xC1 :=
  ⟨⟨by decide, .inl rfl⟩, by decide, .inr rfl⟩

theorem witness_PushcStoresTheWord :
    (FetchesAt (code 0x0000 [0x61, 0xEF, 0xBE]) 0x61 ∧ OpcodeByte 0x61 0x61) ∧ FetchesAt (code 0x0000 [0xE1]) 0xE1 ∧
      OpcodeByte 0x61 0xE1 :=
  ⟨⟨by decide, .inl rfl⟩, by decide, .inr rfl⟩

theorem witness_EveryInstructionChargesTheBytesItTouches :
    DividesByZero State.reset (.div .r1 .r2) ∧ DividesByZero State.reset (.divc .r1 0) ∧
    ¬ DividesByZero State.reset (.div .r1 .sp) ∧ ¬ DividesByZero State.reset (.divc .r1 1) ∧ ¬ DividesByZero State.reset .halt :=
  ⟨rfl, rfl, by simp [DividesByZero, valueAt, State.reg, State.reset, State.resetOf, Config.initialSp], by simp [DividesByZero], id⟩

/-- Each clause: INM with I clear; the lowest and highest maskable line with I set; a line held back by I; none. -/
theorem witness_AcceptanceFollowsPendingAndEnable :
    (∀ p ∈ ([0x80, 0xFF, 0x01, 0x40, 0x00] : List Byte), ∀ v ∈ ([0x00, 0x10] : List Byte),
      State.Running { State.reset with pending := p, status := v }) ∧
    (0x80 : Byte).getLsbD 7 = true ∧ (0x01 : Byte).getLsbD 0 = true ∧ (0x40 : Byte).getLsbD 6 = true ∧
    (0x40 : Byte).getLsbD 7 = false ∧ (0x10 : Byte).getLsbD 4 = true ∧ ¬ (0x00 : Byte).getLsbD 4 = true ∧
    ∃ t, step { State.reset with pending := 0x01 } = .next t :=
  ⟨by decide, by decide, by decide, by decide, by decide, by decide, by decide, _, rfl⟩

theorem witness_LowestLineFirstAndOneServiceAtATime :
    State.Running { State.reset with pending := 0xFF } ∧ State.acceptedLine { State.reset with pending := 0xFF } = some 7 ∧
    State.Running { State.reset with pending := 0x41, status := 0x10 } ∧ State.budgetLeft State.reset = true ∧
    State.acceptedLine { State.reset with pending := 0x41, status := 0x10 } = some 0 ∧
    State.acceptedLine { State.reset with pending := 0x40, status := 0x10 } = some 6 := by decide

/-- Two words of a frame share no byte at the reset stack pointer, nor across the end of the address space. -/
theorem witness_ServiceSavesTheFrameAndVectors :
    Memory.wf State.reset.mem = true ∧ State.reset.mem.size = 65536 ∧
    WordsApart State.reset.mem.size (State.reset.sp - 4) (State.reset.sp - 2) ∧ WordsApart 65536 (0x0003 - 4) (0x0003 - 2) ∧
    WordsApart (State.resetOf 65535).mem.size (State.reset.sp - 4) (State.reset.sp - 2) := by decide

theorem witness_ReturnSequencesResumeTheProgram :
    Reg.r5 ≠ .pc ∧ Reg.r5 ≠ .sp ∧ Memory.wf State.reset.mem = true ∧ State.reset.mem.size = 65536 ∧
    WordsApart State.reset.mem.size (State.reset.sp - 4) (State.reset.sp - 2) := by decide

/-- An instruction, a service, a call, a host write, and the host operations that leave the byte alone. -/
theorem witness_PendingChangesOnlyByServiceResetAndHost :
    (∃ t, exec .reset { State.reset with pending := 3 } = .next t) ∧
    (∃ t, stepWith standardConfig { State.reset with pending := 0x81 } = .next t ∧ t.pending.getLsbD 0 = true) ∧
    (executeWith standardConfig 1 { State.reset with pending := 1 }).1.pending.getLsbD 0 = true ∧
    (∃ t, hostStep standardConfig (.writePending 0x81) State.reset = .ok (t, none)) ∧
    (∃ t, hostStep standardConfig .reset { State.reset with pending := 3 } = .ok (t, none)) ∧
    ∃ t, hostStep standardConfig (.writeStatus 0x10) State.reset = .ok (t, none) :=
  ⟨⟨_, rfl⟩, ⟨_, rfl, by decide⟩, by decide, ⟨_, rfl⟩, ⟨_, rfl⟩, _, rfl⟩

theorem witness_InvHoldsAtReset : 2 ≤ standardConfig.memSize ∧ standardConfig.memSize ≤ 65536 := by decide

/-- Both instructions that enable, with the lowest and the highest maskable line pending. -/
theorem witness_EnablingInterruptsActsAtTheNextStep :
    (State.Fetching { code 0x0000 [0x65] with pending := 0x01, cycles := some 2 } ∧
      ∃ t, exec .sei { code 0x0000 [0x65] with pending := 0x01, cycles := some 2 } = .next t ∧ t.budgetLeft = true) ∧
    (State.Fetching { poke (code 0x0000 [0x64]) 0x00A0 0x10 with pending := 0x40, cycles := some 4 } ∧
      (Memory.readByte (poke (code 0x0000 [0x64]) 0x00A0 0x10).mem 0x00A0).getLsbD 4 = true ∧
      ∃ t, exec .pops { poke (code 0x0000 [0x64]) 0x00A0 0x10 with pending := 0x40, cycles := some 4 } = .next t ∧
        t.budgetLeft = true) :=
  ⟨⟨by decide, _, rfl, by decide⟩, by decide, by decide, _, rfl, by decide⟩

/-- A state of the invariant other than reset, one step from the bound of the counter. -/
theorem witness_StepKeepsInv :
    (code 0x0000 [0x29, 0xAA, 0x00, 0x00, 0x02]).Inv ∧
    ∃ t, stepWith standardConfig (code 0x0000 [0x29, 0xAA, 0x00, 0x00, 0x02]) = .next t ∧ t.cycles = some (-6) :=
  ⟨⟨by decide, by decide, fun c h => by cases h; decide⟩, _, rfl, by decide⟩

theorem witness_HostRunsKeepInv :
    State.reset.Inv ∧ State.reset.Idle ∧
    ∃ t, HostRun standardConfig State.reset [.load [0x21, 0x01], .execute 2, .writePending 0x80] t :=
  ⟨⟨rfl, .inl rfl, fun c h => by cases h⟩, rfl, _,
    .cons _ _ _ _ _ _ rfl (.cons _ _ _ _ _ _ rfl (.cons _ _ _ _ _ _ rfl (.done _)))⟩

theorem witness_OnlyResetClearsHaltAndFault :
    (∃ t out, hostStep standardConfig (.execute 5) { State.reset with halted := true } = .ok (t, out)) ∧
    (∃ t out, hostStep standardConfig (.execute 5) { State.reset with fault := some ⟨.divByZero, 0, 4⟩ } = .ok (t, out)) ∧
    HostOp.execute 5 ≠ .reset :=
  ⟨⟨_, _, rfl⟩, ⟨_, _, rfl⟩, by decide⟩

/-- Status bytes that differ in every bit but I. -/
theorem witness_OnlyTheEnableBitSteersTheCore :
    (0xEF : Byte).getLsbD 4 = (State.reset).status.getLsbD 4 ∧
    (0x10 : Byte).getLsbD 4 = (withStatus State.reset 0xFF).status.getLsbD 4 := by decide

theorem witness_ExecuteEndsWhereTheLoopEnds :
    State.reset.fault = none ∧ State.Running { code 0x0000 [0x7F] with cycles := some 3 } := by decide

/-- Each clause: a halt with the whole budget used, a budget used up exactly, an overrun, a negative budget, a fault, and a
core that is faulted before the call. -/
theorem witness_ExecuteReportsTheCounter :
    (executeWith standardConfig 1 { code 0x0000 [0x7F] with cycles := none }).2 = ⟨.halted, some 0, false⟩ ∧
    (executeWith standardConfig 1 State.reset).2 = ⟨.budgetExhausted, some 0, false⟩ ∧
    (executeWith standardConfig 1 { code 0x0000 [0x29] with cycles := none }).2 = ⟨.budgetExhausted, some (-6), true⟩ ∧
    (executeWith standardConfig (-1) State.reset).2 = ⟨.budgetExhausted, some (-1), true⟩ ∧
    (executeWith standardConfig 1 { code 0x0000 [0x09] with cycles := none }).2 =
      ⟨.faulted ⟨.illegalInstruction, 0, 0x09⟩, some 0, false⟩ ∧
    State.Idle { State.reset with fault := some ⟨.divByZero, 0, 4⟩ } := by decide

theorem witness_BudgetOneIsASingleStep :
    State.reset.Idle ∧ State.reset.fault = none ∧ State.reset.halted = false ∧
    State.Idle { State.reset with halted := true } := by decide

/-- A first call that ends at 0, one that overruns to -6, and one whose budget is negative; the second budget 0. -/
theorem witness_SplittingTheBudgetChangesNothing :
    State.reset.Idle ∧ (executeWith standardConfig 1 State.reset).2 = ⟨.budgetExhausted, some 0, false⟩ ∧
    (executeWith standardConfig 1 { code 0x0000 [0x29] with cycles := none }).2 = ⟨.budgetExhausted, some (-6), true⟩ ∧
    (executeWith standardConfig (-1) State.reset).2 = ⟨.budgetExhausted, some (-1), true⟩ ∧ (0 : Int) ≤ 0 := by decide

/-- The longest image that is loaded and the shortest that is refused. -/
theorem witness_LoadCopiesTheImageToAddressZero :
    State.reset.Idle ∧ Memory.wf State.reset.mem = true ∧
    (List.replicate 65536 (0x01 : Byte)).length ≤ State.reset.mem.size ∧
    State.reset.mem.size < (List.replicate 65537 (0x01 : Byte)).length :=
  ⟨rfl, rfl, by rw [List.length_replicate]; decide, by rw [List.length_replicate]; decide⟩

end Sys2Proof.Tests
end

/-! PROOFS. Memory access (20_memory.md): what a read gives, what a store leaves in the array, and what each of the two charges. -/

section

namespace Sys2Proof.Proofs

open Sys2Proof.Machine Sys2Proof.Statements

/-! ### The bytes of a word in the terms of the statements -/

theorem loByte_eq_ofNat (v : Word) : loByte v = BitVec.ofNat 8 v.toNat :=
  BitVec.eq_of_toNat_eq (toNat_loByte v)

theorem hiByte_eq_ofNat (v : Word) : hiByte v = BitVec.ofNat 8 (v.toNat / 256) := by
  have := v.isLt
  apply BitVec.eq_of_toNat_eq
  rw [toNat_hiByte, BitVec.toNat_ofNat]
  omega

/-! ### Reads -/

/-- An address is reduced modulo MEM_SIZE once, however often it is reduced before (R52). -/
@[simp] theorem readByte_mod_size (m : Memory) (a : Nat) : Memory.readByte m (a % m.size) = Memory.readByte m a :=
  Memory.readByte_congr m (Nat.mod_mod a m.size)

theorem toNat_readWord (m : Memory) (a : Word) :
    (Memory.readWord m a).toNat =
      (Memory.readByte m a.toNat).toNat + 256 * (Memory.readByte m (a.toNat + 1)).toNat :=
  toNat_wordOfBytes _ _

/-- Settles O12: the second byte of a word is read through the reduced address, and a read only charges. -/
theorem memReadIsLittleEndianAndCharges : Obligations.MemReadIsLittleEndianAndCharges := by
  intro s a
  have hword : (s.memRead16 a).1.toNat =
      (Memory.readByte s.mem a.toNat).toNat + 256 * (Memory.readByte s.mem ((a.toNat + 1) % s.mem.size)).toNat := by
    rw [readByte_mod_size]
    exact toNat_readWord s.mem a
  exact ⟨rfl, rfl, hword, rfl⟩

/-! ### Stores -/

/-- An operation whose memory is that of a word store has stored the word, whatever it does to the rest of the state. -/
theorem storesWord_of_mem_eq_writeWord {s t : State} {ea v : Word} (h : Memory.wf s.mem = true)
    (ht : t.mem = Memory.writeWord s.mem ea v) : StoresWord s t ea v := by
  refine ⟨by rw [ht, Memory.writeWord_size], fun k => ?_⟩
  rw [ht, Memory.readByte_writeWord _ _ _ _ h, loByte_eq_ofNat, hiByte_eq_ofNat]

/-- Settles O13: the bytes and the read-back come from the rules of the array, the frames from the form of the two stores. -/
theorem memWriteThenReadGivesTheValue : Obligations.MemWriteThenReadGivesTheValue := by
  intro s a v b h
  have hbyte (k : Nat) : Memory.readByte (s.memWrite8 a b).mem k =
      if SameByte s k a.toNat then b else Memory.readByte s.mem k :=
    Memory.readByte_writeByte s.mem a.toNat k b h
  have hword : StoresWord s (s.memWrite16 a v) a v := storesWord_of_mem_eq_writeWord h (State.memWrite16_mem s a v)
  have hback : ((s.memWrite16 a v).memRead16 a).1 = v := Memory.readWord_writeWord s.mem a v h
  exact ⟨hbyte, rfl, rfl, hword, rfl, hback⟩

end Sys2Proof.Proofs

end

/-! PROOFS. The opcode byte and the fetch primitives (30_encoding.md R71 to R73): the byte against its two fields, and what
a fetch at `pc` gives and charges. -/

section

namespace Sys2Proof.Proofs

open Sys2Proof.Machine Sys2Proof.Statements

/-! ### The opcode byte -/

theorem toNat_opField (b : Byte) : (opField b).toNat = b.toNat % 128 := by
  simp [opField, BitVec.extractLsb'_toNat]

theorem modeBit_eq_decide (b : Byte) : modeBit b = decide (128 ≤ b.toNat) := by
  rw [modeBit, ← BitVec.msb_eq_getLsbD_last, BitVec.msb_eq_decide]

theorem modeBit_eq_true_iff (b : Byte) : modeBit b = true ↔ 128 ≤ b.toNat := by
  rw [modeBit_eq_decide, decide_eq_true_iff]

theorem toNat_opcodeByte (op : BitVec 7) (m : Bool) : (opcodeByte op m).toNat = 128 * m.toNat + op.toNat := by
  rw [opcodeByte, BitVec.toNat_append, BitVec.toNat_ofBool, ← Nat.shiftLeft_add_eq_or_of_lt op.isLt, Nat.shiftLeft_eq]
  omega

/-- The two fields hold all of the opcode byte (R73): its bit 7 is its quotient by 128. -/
@[simp] theorem opcodeByte_opField_modeBit (b : Byte) : opcodeByte (opField b) (modeBit b) = b := by
  have hquot : (modeBit b).toNat = b.toNat / 128 := by
    have := b.isLt
    rw [modeBit_eq_decide]
    by_cases h : 128 ≤ b.toNat <;> simp [h] <;> omega
  apply BitVec.eq_of_toNat_eq
  rw [toNat_opcodeByte, toNat_opField, hquot, Nat.div_add_mod]

/-- Settles O7: the fields are the remainder and the quotient of the byte by 128, so the two together determine it, and
any two fields come back from the byte built of them. -/
theorem opcodeByteSplitsIntoOpAndMode : Obligations.OpcodeByteSplitsIntoOpAndMode := fun b =>
  ⟨toNat_opField b, modeBit_eq_true_iff b, opcodeByte_opField_modeBit b,
    fun op m => ⟨opField_opcodeByte op m, modeBit_opcodeByte op m⟩⟩

/-! ### Fetch -/

/-- `Fetch16` is two `Fetch8`: its second byte is at the next value of `pc`, which wraps at 16 bits, whatever MEM_SIZE is
(R72). -/
theorem fetch16_eq (s : State) :
    s.fetch16 =
      (wordOfBytes (Memory.readByte s.mem s.pc.toNat) (Memory.readByte s.mem (s.pc + 1).toNat), s.fetched 2) := by
  simp only [State.fetch16, State.fetch8_eq, State.fetched_fetched]
  rfl

/-- Settles O8: the state after a fetch is `State.fetched` of the bytes read, and the word has its low byte first. -/
theorem fetchReadsBytesAndAdvances : Obligations.FetchReadsBytesAndAdvances := by
  intro s
  rw [State.fetch8_eq, fetch16_eq]
  exact ⟨⟨rfl, rfl⟩, toNat_wordOfBytes _ _, rfl⟩

end Sys2Proof.Proofs

end

/-! PROOFS. Machine control (40_machine_control.md): the step of a one-byte instruction, the slide over zeroed memory, and
the core that HALT leaves. -/

section

namespace Sys2Proof.Proofs

open Sys2Proof.Machine Sys2Proof.Statements

/-! ### The step of an instruction with no operand -/

theorem opField_of_opcodeByte {op : Nat} {b : Byte} (h : OpcodeByte op b) : opField b = BitVec.ofNat 7 op := by
  apply BitVec.eq_of_toNat_eq
  rw [toNat_opField, BitVec.toNat_ofNat]
  rcases h with h | h <;> omega

/-- Bit 7 of the opcode byte has no part in the decoding of an instruction of format F0 (R74, R78). -/
theorem step_of_opcodeByte_f0 {s : State} {op : Nat} {o : Opcode} {i : Instr} (hs : s.Fetching)
    (hb : OpcodeByte op (s.stream 0)) (ho : defaultOpcodeMap.opcodeOf (BitVec.ofNat 7 op) = some o)
    (hi : o.shape = .f0 i) : step s = exec i s := by
  have hop : standardConfig.opcodeMap.opcodeOf (opField (s.stream 0)) = some o := by
    rw [opField_of_opcodeByte hb]
    exact ho
  have hd : decodeAt standardConfig s.stream = .ok i := by
    simp only [decodeAt, hop, hi, Shape.read]
  exact stepWith_of_decodeAt standardConfig s i hs hd

theorem exec_noop_eq_fetched (s : State) : exec .noop s = .next (s.fetched 1) := exec_noop s

theorem step_noop {s : State} (hs : s.Fetching) (hb : OpcodeByte 0 (s.stream 0)) : step s = exec .noop s :=
  step_of_opcodeByte_f0 hs hb rfl rfl

theorem step_halt {s : State} (hs : s.Fetching) (hb : OpcodeByte 0x7F (s.stream 0)) : step s = exec .halt s :=
  step_of_opcodeByte_f0 hs hb rfl rfl

/-! ### The slide over zero bytes -/

@[simp] theorem fetched_zero (s : State) : s.fetched 0 = s :=
  State.ext_of_reg (fun r => by cases r <;> simp) rfl rfl rfl rfl rfl (by simp)

/-- A fetch moves the stream on by the bytes fetched (R24). -/
theorem stream_fetched (s : State) (m k : Nat) : (s.fetched m).stream k = s.stream (m + k) := by
  simp only [State.stream, State.fetched_mem, State.fetched_pc, BitVec.ofNat_add, BitVec.add_assoc]

/-- Fetched bytes that leave some of the budget leave a fetching core fetching. -/
theorem fetching_fetched {s : State} {k : Nat} (hs : s.Fetching) (hk : ∀ c, s.cycles = some c → (k : Int) < c) :
    (s.fetched k).Fetching := by
  obtain ⟨⟨hfault, hhalted, -⟩, hline⟩ := hs
  have hbudget : (s.fetched k).budgetLeft = true := by
    cases hc : s.cycles with
    | none => simp [State.budgetLeft, hc]
    | some c =>
      have := hk c hc
      simp only [State.budgetLeft, State.fetched_cycles, hc, Option.map_some, decide_eq_true_eq]
      omega
  exact ⟨⟨hfault, hhalted, hbudget⟩, hline⟩

theorem run_succ (M : Host.Core) {n : Nat} {s t : M.State} (h : M.step s = .next t) : M.run (n + 1) s = M.run n t := by
  simp only [Host.Core.run, h]

theorem steps_succ {n : Nat} {s t : State} (h : step s = .next t) : steps (n + 1) s = steps n t :=
  run_succ Sys2Proof.core h

/-- `n` zero bytes that are each fetched in their turn are `n` NOOPs. -/
theorem steps_of_zeros (n : Nat) (s : State) (h : ∀ k, k < n → (s.fetched k).Fetching ∧ s.stream k = 0) :
    steps n s = .next (s.fetched n) := by
  induction n generalizing s with
  | zero => rw [fetched_zero]; rfl
  | succ n ih =>
    obtain ⟨hfetching, hzero⟩ := h 0 n.succ_pos
    have hfirst : step s = .next (s.fetched 1) := by
      rw [step_noop (fetched_zero s ▸ hfetching) (.inl (by rw [hzero]; rfl)), exec_noop_eq_fetched]
    have hrest (k : Nat) (hk : k < n) : ((s.fetched 1).fetched k).Fetching ∧ (s.fetched 1).stream k = 0 := by
      rw [State.fetched_fetched, stream_fetched]
      exact h (1 + k) (by omega)
    rw [steps_succ hfirst, ih _ hrest, State.fetched_fetched, Nat.add_comm]

/-- Settles O19: a NOOP is the fetch of its one byte, so the slide is the fetch of `n` bytes; each of its steps has budget
because fewer than `n` bytes are fetched before it. -/
theorem noopOnlyAdvancesAndZerosSlide : Obligations.NoopOnlyAdvancesAndZerosSlide := by
  refine ⟨exec_noop_eq_fetched, fun _ => step_noop, fun n s hs hzero hbudget => ?_⟩
  refine steps_of_zeros n s fun k hk => ⟨fetching_fetched hs fun c hc => ?_, hzero k hk⟩
  have := hbudget c hc
  omega

/-! ### The halted core -/

theorem stepWith_of_halted (cfg : Config) {s : State} (hhalted : s.halted = true) (hfault : s.fault = none) :
    stepWith cfg s = .fault .halted := by
  simp [stepWith, hfault, hhalted]

theorem outcome_reason_of_halted {s : State} (hhalted : s.halted = true) (hfault : s.fault = none) :
    s.outcome.reason = .halted := by
  simp [State.outcome, hfault, hhalted]

/-- Between calls there is no counter, so the one a call sets is gone when it ends (R222). -/
theorem endCall_setCycles {s : State} (hs : s.Idle) (c : Option Int) : State.endCall { s with cycles := c } = s := by
  change { s with cycles := none } = s
  rw [← show s.cycles = none from hs]

/-- A call on a halted core sets its counter and ends before the first pass (R210, R242). -/
theorem executeWith_of_halted (cfg : Config) (budget : Int) {s : State} (hs : s.Idle) (hhalted : s.halted = true)
    (hfault : s.fault = none) : executeWith cfg budget s = (s, State.outcome { s with cycles := some budget }) := by
  have hstop : ¬ State.Running { s with cycles := some budget } := fun ⟨_, hrunning, _⟩ => by
    simp [hhalted] at hrunning
  rw [executeWith_of_no_fault cfg budget s hfault, runLoop_of_not_running cfg _ _ hstop, endCall_setCycles hs]

/-- Settles O22: the entry test sees the halted flag before the pending byte, and the call's loop ends where it begins. -/
theorem haltStopsTheCore : Obligations.HaltStopsTheCore := by
  refine ⟨exec_halt, fun _ => step_halt, fun _ => stepWith_of_halted standardConfig, ?_⟩
  intro cfg s budget hs hhalted hfault
  rw [executeWith_of_halted cfg budget hs hhalted hfault]
  exact ⟨rfl, outcome_reason_of_halted hhalted hfault⟩

end Sys2Proof.Proofs

end

/-! PROOFS. Stack and status (45_stack_and_status.md): a push after a fetch, by its store and by everything else, and the
step of an instruction whose opcode byte stands under either value of bit 7. -/

section

namespace Sys2Proof.Proofs

open Sys2Proof.Machine Sys2Proof.Statements

/-! ### A push after a fetch -/

/-- The fetch writes neither memory nor `sp`, so the word goes below the old `sp` into the old array (R56). -/
theorem storesWord_fetchedAs_push16 {s : State} (h : Memory.wf s.mem = true) (f : Format) (m : Bool) (v : Word) :
    StoresWord s ((s.fetchedAs f m).push16 v) (s.sp - 2) v :=
  storesWord_of_mem_eq_writeWord h (State.push16_mem (s.fetchedAs f m) v)

/-- Two charges in a row are one charge of their sum. -/
theorem charged_trans {s t u : State} {m n : Nat} (hst : Charged s t m) (htu : Charged t u n) : Charged s u (m + n) := by
  simp only [Charged] at hst htu ⊢
  rw [htu, hst]
  cases s.cycles with
  | none => rfl
  | some c => simp only [Option.map_some, Int.natCast_add, Int.sub_sub]

/-- A fetch and a push write only `pc` and `sp`, and charge the bytes fetched and the two bytes stored (R56, R71). -/
theorem effect_fetchedAs_push16 (s : State) (f : Format) (m : Bool) (v : Word) :
    Effect s ((s.fetchedAs f m).push16 v) (f.length m + 2)
      (fun q => if q = .sp then s.sp - 2 else valueAt s (f.length m) q) s.status where
  regs q := by rw [State.push16_reg, State.fetchedAs_reg, State.fetchedAs_sp, valueAt]
  status := rfl
  control := ⟨rfl, rfl, rfl⟩
  cycles := charged_trans (State.fetchedAs_cycles s f m) (State.push16_cycles (s.fetchedAs f m) v)

/-! ### PUSHC -/

/-- The step of an opcode number is that of the operands read in the format of its mnemonic, under either value of bit 7
(R73, R78). -/
theorem step_of_opcodeByte {s : State} {op : Nat} {o : Opcode} {i : Instr} (hs : s.Fetching)
    (hb : OpcodeByte op (s.stream 0)) (ho : defaultOpcodeMap.opcodeOf (BitVec.ofNat 7 op) = some o)
    (hi : o.shape.read .fault (modeBit (s.stream 0)) s.stream = .ok i) : step s = exec i s := by
  have hop : standardConfig.opcodeMap.opcodeOf (opField (s.stream 0)) = some o := by
    rw [opField_of_opcodeByte hb]
    exact ho
  have hd : decodeAt standardConfig s.stream = .ok i := by
    rw [decodeAt, hop]
    exact hi
  exact stepWith_of_decodeAt standardConfig s i hs hd

theorem step_pushc {s : State} (hs : s.Fetching) (hb : OpcodeByte 0x61 (s.stream 0)) :
    step s = exec (.pushc (BitVec.ofNat 16 ((s.stream 1).toNat + 256 * (s.stream 2).toNat))) s := by
  rw [← wordOfBytes_eq_ofNat]
  exact step_of_opcodeByte hs hb rfl rfl

/-- Settles O40: PUSHC is a fetch of its three bytes and a push, and format FW has no operand that bit 7 selects. -/
theorem pushcStoresTheWord : Obligations.PushcStoresTheWord :=
  ⟨fun w s h => ⟨_, exec_pushc w s, storesWord_fetchedAs_push16 h .fw false w, effect_fetchedAs_push16 s .fw false w⟩,
    fun _ => step_pushc⟩

end Sys2Proof.Proofs

end

/-! PROOFS. Exceptions (60_exceptions.md): which line is accepted, and the state a service leaves to the next step. -/

section

namespace Sys2Proof.Proofs

open Sys2Proof.Machine Sys2Proof.Statements

/-! ### The accepted line -/

/-- The scan of the lines 0..6 finds a line exactly when it is the lowest that is pending: there is only one such (R214). -/
theorem lowestMaskable_eq_some_iff (p : Byte) (k : Fin 8) :
    lowestMaskable p = some k ↔ k.val < 7 ∧ p.getLsbD k.val = true ∧ ∀ j, j < k.val → p.getLsbD j = false := by
  refine ⟨lowestMaskable_some p k, fun ⟨hk, hpending, hbelow⟩ => ?_⟩
  cases hm : lowestMaskable p with
  | none =>
    have hclear := (lowestMaskable_eq_none p).1 hm k.val hk
    exact absurd hpending (ne_true_of_eq_false hclear)
  | some m =>
    obtain ⟨-, hmpending, hmbelow⟩ := lowestMaskable_some p m hm
    have hkm : ¬ k.val < m.val := fun hlt => ne_true_of_eq_false (hmbelow _ hlt) hpending
    have hmk : ¬ m.val < k.val := fun hlt => ne_true_of_eq_false (hbelow _ hlt) hmpending
    rw [show m = k by omega]

/-- INM first and unmasked, then the lowest maskable line while I is set (R213, R214). -/
theorem acceptedLine_eq_some_iff (s : State) (k : Fin 8) :
    s.acceptedLine = some k ↔
      s.pending.getLsbD k.val = true ∧ (k = 7 ∨ (s.status.getLsbD 4 = true ∧ s.pending.getLsbD 7 = false ∧
        ∀ j, j < k.val → s.pending.getLsbD j = false)) := by
  rw [acceptedLine_eq]
  cases hinm : s.pending.getLsbD 7 with
  | true =>
    rw [if_pos rfl, Option.some.injEq]
    exact ⟨fun h => ⟨h ▸ hinm, .inl h.symm⟩, fun ⟨_, h⟩ => (h.resolve_right (by simp)).symm⟩
  | false =>
    have hlt (h : s.pending.getLsbD k.val = true) : k.val < 7 := by
      have : k.val ≠ 7 := fun e => ne_true_of_eq_false hinm (e ▸ h)
      omega
    have hne (h : s.pending.getLsbD k.val = true) : k ≠ 7 := Fin.ne_of_lt (hlt h)
    cases s.status.getLsbD 4 with
    | true =>
      simp only [Bool.false_eq_true, if_false, if_true, lowestMaskable_eq_some_iff, true_and]
      exact ⟨fun ⟨_, hpending, hbelow⟩ => ⟨hpending, .inr hbelow⟩,
        fun ⟨hpending, h⟩ => ⟨hlt hpending, hpending, h.resolve_left (hne hpending)⟩⟩
    | false =>
      rw [if_neg Bool.false_ne_true, if_neg Bool.false_ne_true]
      exact iff_of_false (by simp) fun ⟨hpending, h⟩ => hne hpending (h.resolve_right (by simp))

/-- With I clear only INM is accepted (R213). -/
theorem acceptedLine_eq_none_of_masked {s : State} (hinm : s.pending.getLsbD 7 = false)
    (hmasked : s.status.getLsbD 4 = false) : s.acceptedLine = none := by
  rw [acceptedLine_eq, if_neg (ne_true_of_eq_false hinm), if_neg (ne_true_of_eq_false hmasked)]

/-- A maskable line is accepted only while INM is not pending (R214). -/
theorem inm_clear_of_accepted_maskable {s : State} {k : Fin 8} (hk : s.acceptedLine = some k) (h7 : k ≠ 7) :
    s.pending.getLsbD 7 = false := by
  obtain ⟨-, h | ⟨-, hinm, -⟩⟩ := (acceptedLine_eq_some_iff s k).1 hk
  · exact absurd h h7
  · exact hinm

/-! ### After the service -/

theorem service_pending_getLsbD (s : State) (o : IrqFrameOrder) (k : Fin 8) (j : Nat) :
    (s.service o k).pending.getLsbD j = if j = k.val then false else s.pending.getLsbD j := by
  rw [State.service_pending, setBit_getLsbD _ _ _ _ k.isLt]

theorem service_status_getLsbD (s : State) (o : IrqFrameOrder) (k : Fin 8) (j : Nat) :
    (s.service o k).status.getLsbD j = if j = 4 then false else s.status.getLsbD j := by
  rw [State.service_status, setFlag_getLsbD]
  rfl

/-- The service of an accepted line leaves I clear and INM not pending: INM was the line, or it was not pending. -/
theorem service_acceptedLine {s : State} {k : Fin 8} (o : IrqFrameOrder) (hk : s.acceptedLine = some k) :
    (s.service o k).acceptedLine = none := by
  have hinm : (s.service o k).pending.getLsbD 7 = false := by
    rw [service_pending_getLsbD]
    by_cases h7 : k = 7
    · exact if_pos (h7 ▸ rfl)
    · rw [inm_clear_of_accepted_maskable hk h7, ite_self]
  exact acceptedLine_eq_none_of_masked hinm (service_status_getLsbD s o k 4)

/-- Settles O46: the priority is that of the accepted line; the service clears its bit alone and I, and touches neither the
fault record nor the halted flag, so with budget left the core fetches. -/
theorem lowestLineFirstAndOneServiceAtATime : Obligations.LowestLineFirstAndOneServiceAtATime := by
  refine ⟨acceptedLine_eq_some_iff, fun cfg s k hs hk => ?_⟩
  have hnone := service_acceptedLine cfg.irqFrameOrder hk
  refine ⟨stepWith_service cfg s k hs hk, service_pending_getLsbD s cfg.irqFrameOrder k, hnone, fun hbudget => ?_⟩
  obtain ⟨hfault, hhalted, -⟩ := hs
  exact ⟨⟨by rw [State.service_fault, hfault], by rw [State.service_halted, hhalted], hbudget⟩, hnone⟩

end Sys2Proof.Proofs

end

/-! PROOFS. Encoding (30_encoding.md R70 to R83): what the decoder finds in a byte source, said once over the nine
formats, and from it the two directions between instructions and bytes and the part of bit 7. -/

section

namespace Sys2Proof.Proofs

open Sys2Proof.Machine Sys2Proof.Statements

/-! ### The instruction of a shape and its operands -/

/-- The instruction a shape makes of operands of its own format; none of operands of another. -/
def instrOf : Shape → Operands → Option Instr
  | .f0 i, .f0 => some i
  | .fr make, .fr a => some (make a)
  | .frr make, .frr a b => some (make a b)
  | .frw make, .frw a w => some (make a w)
  | .fw make, .fw w => some (make w)
  | .fa make, .fa addr => some (make addr)
  | .fra make, .fra a addr => some (make a addr)
  | .fwa make, .fwa w addr => some (make w addr)
  | .frwa make, .frwa a w addr => some (make a w addr)
  | _, _ => none

theorem instrOf_opcode_operands (i : Instr) : instrOf i.opcode.shape i.operands = some i := by
  cases i <;> rfl

/-- A mnemonic and operands of its format determine the instruction, and the instruction determines both. -/
theorem opcode_operands_of_instrOf {o : Opcode} {ops : Operands} {i : Instr} (h : instrOf o.shape ops = some i) :
    i.opcode = o ∧ i.operands = ops := by
  cases o <;> cases ops <;> cases h <;> exact ⟨rfl, rfl⟩

/-! ### Operands in a byte source -/

/-- The address operand lies at position `k`, in the form `m` selects (R77). -/
def AddrLiesAt (p : SelectorPolicy) (m : Bool) (src : Nat → Byte) (k : Nat) : AddrOperand → Prop
  | .imm a => m = false ∧ wordAt src k = a
  | .ind r => m = true ∧ p.select (src k) = some r

/-- The operands lie at the positions R78 gives them. -/
def LieIn (p : SelectorPolicy) (m : Bool) (src : Nat → Byte) : Operands → Prop
  | .f0 => True
  | .fr a => p.select (src 1) = some a
  | .frr a b => p.select (src 1) = some a ∧ p.select (src 2) = some b
  | .frw a w => p.select (src 1) = some a ∧ wordAt src 2 = w
  | .fw w => wordAt src 1 = w
  | .fa addr => AddrLiesAt p m src 1 addr
  | .fra a addr => p.select (src 1) = some a ∧ AddrLiesAt p m src 2 addr
  | .fwa w addr => wordAt src 1 = w ∧ AddrLiesAt p m src 3 addr
  | .frwa a w addr => p.select (src 1) = some a ∧ wordAt src 2 = w ∧ AddrLiesAt p m src 4 addr

theorem except_map_eq_ok {ε α β : Type} {x : Except ε α} {f : α → β} {b : β} :
    x.map f = .ok b ↔ ∃ a, x = .ok a ∧ f a = b := by
  cases x <;> simp [Except.map]

theorem except_bind_eq_ok {ε α β : Type} {x : Except ε α} {f : α → Except ε β} {b : β} :
    x.bind f = .ok b ↔ ∃ a, x = .ok a ∧ f a = .ok b := by
  cases x <;> simp [Except.bind]

theorem selectorAt_eq_ok {p : SelectorPolicy} {src : Nat → Byte} {k : Nat} {r : Reg} :
    selectorAt p src k = .ok r ↔ p.select (src k) = some r := by
  unfold selectorAt
  cases p.select (src k) <;> simp

theorem addrAt_eq_ok {p : SelectorPolicy} {m : Bool} {src : Nat → Byte} {k : Nat} {addr : AddrOperand} :
    addrAt p m src k = .ok addr ↔ AddrLiesAt p m src k addr := by
  cases m <;> cases addr <;> simp [addrAt, AddrLiesAt, except_map_eq_ok, selectorAt_eq_ok]

/-- What the decoder reads of a shape is the instruction of the operands that lie in the source (R76, R77, R78). -/
theorem read_eq_ok {p : SelectorPolicy} {m : Bool} {src : Nat → Byte} {sh : Shape} {i : Instr} :
    sh.read p m src = .ok i ↔ ∃ ops, instrOf sh ops = some i ∧ LieIn p m src ops := by
  constructor
  · intro h
    cases sh <;> simp only [Shape.read, except_bind_eq_ok, except_map_eq_ok, selectorAt_eq_ok, addrAt_eq_ok,
      Except.ok.injEq] at h
    case f0 => exact ⟨.f0, congrArg some h, trivial⟩
    case fr => obtain ⟨a, ha, rfl⟩ := h; exact ⟨.fr a, rfl, ha⟩
    case frr => obtain ⟨a, ha, b, hb, rfl⟩ := h; exact ⟨.frr a b, rfl, ha, hb⟩
    case frw => obtain ⟨a, ha, rfl⟩ := h; exact ⟨.frw a _, rfl, ha, rfl⟩
    case fw => exact ⟨.fw _, congrArg some h, rfl⟩
    case fa => obtain ⟨addr, haddr, rfl⟩ := h; exact ⟨.fa addr, rfl, haddr⟩
    case fra => obtain ⟨a, ha, addr, haddr, rfl⟩ := h; exact ⟨.fra a addr, rfl, ha, haddr⟩
    case fwa => obtain ⟨addr, haddr, rfl⟩ := h; exact ⟨.fwa _ addr, rfl, rfl, haddr⟩
    case frwa => obtain ⟨a, ha, addr, haddr, rfl⟩ := h; exact ⟨.frwa a _ addr, rfl, ha, rfl, haddr⟩
  · rintro ⟨ops, hi, hops⟩
    cases sh <;> cases ops <;> cases hi <;> simp only [LieIn, ← selectorAt_eq_ok, ← addrAt_eq_ok] at hops <;>
      simp [Shape.read, Except.map, Except.bind, hops]

/-- The decoder finds an instruction in a source exactly when the opcode byte selects its mnemonic and its operands lie
behind it (R73, R78, R81). -/
theorem decodeAt_eq_ok {cfg : Config} {src : Nat → Byte} {i : Instr} :
    decodeAt cfg src = .ok i ↔
      cfg.opcodeMap.opcodeOf (opField (src 0)) = some i.opcode ∧
        LieIn cfg.selectorPolicy (modeBit (src 0)) src i.operands := by
  unfold decodeAt
  cases ho : cfg.opcodeMap.opcodeOf (opField (src 0)) with
  | none => simp
  | some o =>
    simp only [read_eq_ok, Option.some.injEq]
    constructor
    · rintro ⟨ops, hi, hops⟩
      obtain ⟨rfl, rfl⟩ := opcode_operands_of_instrOf hi
      exact ⟨rfl, hops⟩
    · rintro ⟨rfl, hops⟩
      exact ⟨i.operands, instrOf_opcode_operands i, hops⟩

/-- The decoder of a list is that of its bytes by position, once the list is long enough to hold the instruction. -/
theorem decodeWith_cons_eq_ok {cfg : Config} {b : Byte} {tail rest : List Byte} {i : Instr} :
    decodeWith cfg (b :: tail) = .ok (i, rest) ↔
      decodeAt cfg (fun k => (b :: tail).getD k 0) = .ok i ∧ i.operands.bytes.length ≤ tail.length ∧
        rest = tail.drop i.operands.bytes.length := by
  have hlen := i.length_eq
  unfold decodeWith
  cases hd : decodeAt cfg (fun k => (b :: tail).getD k 0) with
  | error e => simp
  | ok j =>
    by_cases hj : j.length ≤ (b :: tail).length
    · simp only [List.isEmpty_cons, Bool.false_eq_true, if_false, hj, if_true, Except.ok.injEq, Prod.mk.injEq]
      constructor
      · rintro ⟨rfl, rfl⟩
        rw [hlen, List.length_cons] at hj
        exact ⟨rfl, by omega, by rw [hlen, List.drop_succ_cons]⟩
      · rintro ⟨rfl, -, rfl⟩
        exact ⟨rfl, by rw [hlen, List.drop_succ_cons]⟩
    · simp only [List.isEmpty_cons, Bool.false_eq_true, if_false, hj, Except.ok.injEq, reduceCtorEq, false_iff]
      rintro ⟨rfl, hle, -⟩
      rw [hlen, List.length_cons] at hj
      omega

/-! ### Decoding what was encoded -/

/-- Operands lie in their own bytes, in the form the encoder's mode bit announces, whatever the opcode byte and whatever
follows (R70, R74, R78). -/
theorem lieIn_own_bytes (p : SelectorPolicy) (ops : Operands) (b : Byte) (rest : List Byte) :
    LieIn p ops.mode (fun k => (b :: (ops.bytes ++ rest)).getD k 0) ops := by
  cases ops with
  | f0 => trivial
  | fr a => simp [LieIn, Operands.bytes]
  | frr a c => simp [LieIn, Operands.bytes]
  | frw a w => simp [LieIn, Operands.bytes, wordBytes, wordAt]
  | fw w => simp [LieIn, Operands.bytes, wordBytes, wordAt]
  | fa addr => cases addr <;>
      simp [LieIn, AddrLiesAt, Operands.bytes, Operands.mode, AddrOperand.bytes, AddrOperand.mode, wordBytes, wordAt]
  | fra a addr => cases addr <;>
      simp [LieIn, AddrLiesAt, Operands.bytes, Operands.mode, AddrOperand.bytes, AddrOperand.mode, wordBytes, wordAt]
  | fwa w addr => cases addr <;>
      simp [LieIn, AddrLiesAt, Operands.bytes, Operands.mode, AddrOperand.bytes, AddrOperand.mode, wordBytes, wordAt]
  | frwa a w addr => cases addr <;>
      simp [LieIn, AddrLiesAt, Operands.bytes, Operands.mode, AddrOperand.bytes, AddrOperand.mode, wordBytes, wordAt]

theorem encodeWith_eq_some {map : OpcodeMap} {i : Instr} {n : BitVec 7} (h : map.numberOf i.opcode = some n) :
    encodeWith map i = some (opcodeByte n i.operands.mode :: i.operands.bytes) := by
  simp only [encodeWith, h]

/-- The number of a mnemonic selects it again (R80). -/
theorem opcodeOf_of_numberOf {map : OpcodeMap} (hmap : map.Valid) {o : Opcode} {n : BitVec 7}
    (h : map.numberOf o = some n) : map.opcodeOf n = some o :=
  OpcodeMap.opcodeOf_of_mem map n o hmap.1 (OpcodeMap.mem_of_numberOf map n o h)

theorem decodeWith_encoded {cfg : Config} (hmap : cfg.opcodeMap.Valid) {i : Instr} {n : BitVec 7}
    (h : cfg.opcodeMap.numberOf i.opcode = some n) (rest : List Byte) :
    decodeWith cfg (opcodeByte n i.operands.mode :: (i.operands.bytes ++ rest)) = .ok (i, rest) := by
  refine decodeWith_cons_eq_ok.2 ⟨decodeAt_eq_ok.2 ⟨?_, ?_⟩, by simp, by simp⟩
  · simpa using opcodeOf_of_numberOf hmap h
  · simpa using lieIn_own_bytes cfg.selectorPolicy i.operands (opcodeByte n i.operands.mode) rest

theorem defaultOpcodeMap_valid : defaultOpcodeMap.Valid := by decide

/-- Under the default map every instruction has an opcode, so its encoding is an opcode byte and its operand bytes. -/
theorem encode_eq (i : Instr) : ∃ n, defaultOpcodeMap.numberOf i.opcode = some n ∧
    encode i = opcodeByte n i.operands.mode :: i.operands.bytes := by
  obtain ⟨n, hn⟩ := OpcodeMap.numberOf_isSome defaultOpcodeMap i.opcode (Laws.Layout.mapped i.opcode)
  exact ⟨n, hn, by rw [encode, encodeWith_eq_some hn, Option.getD_some]⟩

/-- Settles O1: the encoder's number selects the mnemonic again, and operands lie in their own bytes. -/
theorem decodeOfEncodeIsIdentity : Obligations.DecodeOfEncodeIsIdentity := by
  refine ⟨fun cfg i rest hmap hi => ?_, fun i rest => ?_⟩
  · obtain ⟨n, hn⟩ := OpcodeMap.numberOf_isSome cfg.opcodeMap i.opcode hi
    exact ⟨_, encodeWith_eq_some hn, i.length_eq.symm, decodeWith_encoded hmap hn rest⟩
  · obtain ⟨n, hn, he⟩ := encode_eq i
    rw [he]
    exact decodeWith_encoded (cfg := standardConfig) defaultOpcodeMap_valid hn rest

/-! ### Encoding what was decoded -/

/-- The `n` bytes of a source from position `k` on. -/
def bytesFrom (src : Nat → Byte) (k n : Nat) : List Byte := (List.range n).map fun j => src (k + j)

theorem bytesFrom_list (l : List Byte) (n : Nat) (b : Byte) (h : n ≤ l.length) :
    bytesFrom (fun k => (b :: l).getD k 0) 1 n = l.take n := by
  refine List.ext_getElem (by simpa [bytesFrom] using h) fun j hj hj' => ?_
  have hlt : j < l.length := by simp [bytesFrom] at hj; omega
  simp [bytesFrom, Nat.add_comm 1 j, hlt]

@[simp] theorem wordBytes_wordAt (src : Nat → Byte) (k : Nat) : wordBytes (wordAt src k) = [src k, src (k + 1)] := by
  simp [wordBytes, wordAt]

/-- Under the default policy the selector of the slot a byte names is that byte (R75). -/
theorem selector_of_select {b : Byte} {r : Reg} (h : SelectorPolicy.fault.select b = some r) : r.selector = b :=
  BitVec.eq_of_toNat_eq (Reg.selector_of_ofSelector _ _ h)

theorem addr_bytes_of_liesAt {m : Bool} {src : Nat → Byte} {k : Nat} {addr : AddrOperand}
    (h : AddrLiesAt .fault m src k addr) : addr.bytes = bytesFrom src k addr.bytes.length := by
  cases addr with
  | imm a => obtain ⟨-, rfl⟩ := h; simp [AddrOperand.bytes, bytesFrom, List.range_succ]
  | ind r => simp [AddrOperand.bytes, bytesFrom, selector_of_select h.2]

theorem bytesFrom_add (src : Nat → Byte) (k m n : Nat) :
    bytesFrom src k (m + n) = bytesFrom src k m ++ bytesFrom src (k + m) n := by
  simp [bytesFrom, List.range_add, Nat.add_assoc]

@[simp] theorem bytesFrom_one (src : Nat → Byte) (k : Nat) : bytesFrom src k 1 = [src k] := rfl

@[simp] theorem bytesFrom_two (src : Nat → Byte) (k : Nat) : bytesFrom src k 2 = [src k, src (k + 1)] := rfl

/-- Operands that lie in a source under the default policy have the bytes of the source behind the opcode byte (R70,
R78). -/
theorem bytes_of_lieIn {m : Bool} {src : Nat → Byte} {ops : Operands} (h : LieIn .fault m src ops) :
    ops.bytes = bytesFrom src 1 ops.bytes.length := by
  cases ops with
  | f0 => rfl
  | fr a => simp [Operands.bytes, selector_of_select h]
  | frr a b => simp [Operands.bytes, selector_of_select h.1, selector_of_select h.2]
  | frw a w =>
    obtain ⟨ha, rfl⟩ := h
    simp [Operands.bytes, selector_of_select ha, bytesFrom_add src 1 1 2]
  | fw w => cases h; simp [Operands.bytes]
  | fa addr => exact addr_bytes_of_liesAt h
  | fra a addr =>
    obtain ⟨ha, haddr⟩ := h
    rw [Operands.bytes, List.length_cons, Nat.add_comm, bytesFrom_add, selector_of_select ha, bytesFrom_one,
      ← addr_bytes_of_liesAt haddr, List.singleton_append]
  | fwa w addr =>
    obtain ⟨rfl, haddr⟩ := h
    rw [Operands.bytes, List.length_append, bytesFrom_add, wordBytes_wordAt,
      show [src 1, src 2].length = 2 from rfl, bytesFrom_two, ← addr_bytes_of_liesAt haddr]
  | frwa a w addr =>
    obtain ⟨ha, rfl, haddr⟩ := h
    rw [Operands.bytes, List.length_cons, List.length_append, Nat.add_comm, bytesFrom_add, bytesFrom_add,
      selector_of_select ha, wordBytes_wordAt, show [src 2, src 3].length = 2 from rfl, bytesFrom_one, bytesFrom_two,
      ← addr_bytes_of_liesAt haddr, List.singleton_append]

/-- In a map without repeats the number that selects a mnemonic is the mnemonic's number (R80). -/
theorem numberOf_eq_of_opcodeOf {map : OpcodeMap} (hmap : map.Valid) {o : Opcode} {n k : BitVec 7}
    (hn : map.opcodeOf n = some o) (hk : map.numberOf o = some k) : k = n := by
  have hrow := OpcodeMap.mem_of_opcodeOf map n o hn
  have hrow' := OpcodeMap.mem_of_numberOf map k o hk
  exact congrArg Prod.fst (List.inj_on_of_nodup_map hmap.2 hrow' hrow rfl)

/-- An instruction holds an address operand exactly when its format has one (R78). -/
theorem addrOperand_isSome (i : Instr) : (addrOperand i).isSome = i.opcode.format.hasAddr := by
  cases i <;> rfl

/-- An address operand that lies in a source has the form the mode bit selects, and the encoder emits that form (R77).
-/
theorem mode_of_lieIn {p : SelectorPolicy} {m : Bool} {src : Nat → Byte} {i : Instr} {addr : AddrOperand}
    (h : LieIn p m src i.operands) (haddr : addrOperand i = some addr) : i.operands.mode = m ∧ addr.mode = m := by
  have hform (k : Nat) (h : AddrLiesAt p m src k addr) : addr.mode = m := by
    cases addr <;> exact h.1.symm
  unfold addrOperand at haddr
  generalize i.operands = ops at h haddr
  cases ops with
  | fa a => cases haddr; exact ⟨hform 1 h, hform 1 h⟩
  | fra r a => cases haddr; exact ⟨hform 2 h.2, hform 2 h.2⟩
  | fwa w a => cases haddr; exact ⟨hform 3 h.2, hform 3 h.2⟩
  | frwa r w a => cases haddr; exact ⟨hform 4 h.2.2, hform 4 h.2.2⟩
  | _ => cases haddr

/-- Settles O2: the bytes read under the default policy are the operands' own, the number is the mnemonic's, and bit 7
is the operands' form where it has a part. -/
theorem encodeOfDecodeIsTheBytes : Obligations.EncodeOfDecodeIsTheBytes := by
  intro bytes rest i h
  cases bytes with
  | nil => cases h
  | cons b tail =>
    obtain ⟨hd, hlen, rfl⟩ := decodeWith_cons_eq_ok.1 h
    obtain ⟨hop, hops⟩ := decodeAt_eq_ok.1 hd
    obtain ⟨n, hn, he⟩ := encode_eq i
    have hnumber : n = opField b := numberOf_eq_of_opcodeOf defaultOpcodeMap_valid hop hn
    have hbytes : i.operands.bytes = tail.take i.operands.bytes.length := by
      rw [← bytesFrom_list tail _ b hlen]
      exact bytes_of_lieIn hops
    have htail : i.operands.bytes ++ tail.drop i.operands.bytes.length = tail := by
      conv_lhs => enter [1]; rw [hbytes]
      exact List.take_append_drop _ _
    refine ⟨b, opcodeByte n i.operands.mode, tail, rfl, by rw [he, List.cons_append, htail], ?_, fun haddr => ?_⟩
    · rw [opField_opcodeByte, hnumber]
    · obtain ⟨addr, ha⟩ := Option.isSome_iff_exists.1 ((addrOperand_isSome i).trans haddr)
      rw [hnumber, (mode_of_lieIn hops ha).1]
      exact (opcodeByte_opField_modeBit b).symm

/-! ### Bit 7 of the opcode byte -/

/-- A shape without an address operand is read without regard to the mode bit and to the opcode byte (R74). -/
theorem read_congr_of_no_addr {p : SelectorPolicy} {sh : Shape} (h : sh.format.hasAddr = false) (m m' : Bool)
    {src src' : Nat → Byte} (hsrc : ∀ k, src (k + 1) = src' (k + 1)) : sh.read p m src = sh.read p m' src' := by
  have h1 := hsrc 0
  have h2 := hsrc 1
  have h3 := hsrc 2
  cases sh with
  | fa | fra | fwa | frwa => cases h
  | _ => simp [Shape.read, selectorAt, wordAt, h1, h2, h3]

theorem decodeWith_congr_of_no_addr {cfg : Config} {b c : Byte} {o : Opcode} (hbc : opField b = opField c)
    (ho : cfg.opcodeMap.opcodeOf (opField b) = some o) (h : o.format.hasAddr = false) (tail : List Byte) :
    decodeWith cfg (b :: tail) = decodeWith cfg (c :: tail) := by
  have hoc : cfg.opcodeMap.opcodeOf (opField c) = some o := hbc ▸ ho
  have hread := read_congr_of_no_addr (p := cfg.selectorPolicy) h (modeBit b) (modeBit c)
    (src := fun k => (b :: tail).getD k 0) (src' := fun k => (c :: tail).getD k 0) fun _ => rfl
  have hat : decodeAt cfg (fun k => (b :: tail).getD k 0) = decodeAt cfg (fun k => (c :: tail).getD k 0) := by
    simp only [decodeAt, List.getD_cons_zero, ho, hoc]
    exact hread
  unfold decodeWith
  rw [hat]
  cases decodeAt cfg (fun k => (c :: tail).getD k 0) with
  | error e => rfl
  | ok i => simp only [List.isEmpty_cons, List.length_cons, i.length_eq, List.drop_succ_cons]

/-- Bytes that decode to an instruction with an address operand hold it in the form bit 7 selects (R73, R77). -/
theorem addrOperand_of_decodeWith {cfg : Config} {b : Byte} {tail rest : List Byte} {o : Opcode} {i : Instr}
    (ho : cfg.opcodeMap.opcodeOf (opField b) = some o) (h : o.format.hasAddr = true)
    (hd : decodeWith cfg (b :: tail) = .ok (i, rest)) : ∃ addr, addrOperand i = some addr ∧ addr.mode = modeBit b := by
  obtain ⟨hat, -, -⟩ := decodeWith_cons_eq_ok.1 hd
  obtain ⟨hop, hops⟩ := decodeAt_eq_ok.1 hat
  obtain rfl : o = i.opcode := Option.some.inj (ho.symm.trans hop)
  obtain ⟨addr, ha⟩ := Option.isSome_iff_exists.1 ((addrOperand_isSome i).trans h)
  exact ⟨addr, ha, (mode_of_lieIn hops ha).2⟩

/-- Settles O3: without an address operand nothing that is read depends on bit 7; with one, bit 7 is the form of the
operand in the decoded instruction. -/
theorem modeBitIgnoredWithoutAddressOperand : Obligations.ModeBitIgnoredWithoutAddressOperand := by
  refine ⟨fun o => by cases o <;> decide, fun cfg b c tail o hbc ho => ⟨fun h => ?_, fun h i rest hb => ?_⟩⟩
  · exact decodeWith_congr_of_no_addr hbc ho h tail
  · obtain ⟨addr, ha, hmode⟩ := addrOperand_of_decodeWith ho h hb
    refine ⟨fun hm => ?_, fun hm => ?_, fun hne rest' hc => ?_⟩
    · cases addr with
      | imm a => exact ⟨a, ha⟩
      | ind r => rw [← hmode] at hm; cases hm
    · cases addr with
      | imm a => rw [← hmode] at hm; cases hm
      | ind r => exact ⟨r, ha⟩
    · obtain ⟨addr', ha', hmode'⟩ := addrOperand_of_decodeWith (hbc ▸ ho) h hc
      obtain rfl : addr = addr' := Option.some.inj (ha.symm.trans ha')
      exact hne (hmode.symm.trans hmode')

/-! ### Illegal opcodes and selectors -/

/-- What `raise` leaves is the state a fault leaves (R230). -/
theorem raised_raise (s : State) (kind : FaultKind) (n : Nat) : Raised s (s.raise kind n) kind n where
  record := rfl
  regs q := State.raise_reg s kind n q
  status := rfl
  pending := rfl
  halted := rfl
  memory := ⟨rfl, fun _ => rfl⟩
  cycles := rfl

/-- A fetching core whose bytes do not decode raises `IllegalInstruction` after the bytes fetched (R230, R231). -/
theorem step_of_decodeAt_error {s : State} {e : DecodeError} (hs : s.Fetching)
    (he : decodeAt standardConfig s.stream = .error e) :
    ∃ t, step s = .next t ∧ Raised s t .illegalInstruction e.fetched :=
  ⟨_, (stepWith_fetch standardConfig s hs).trans (runInstr_error standardConfig s e he), raised_raise s _ _⟩

/-- The numbers the default map leaves out (R81). -/
theorem defaultOpcodeMap_eq_none_iff (op : BitVec 7) :
    defaultOpcodeMap.opcodeOf op = none ↔
      (9 ≤ op.toNat ∧ op.toNat ≤ 31) ∨ (42 ≤ op.toNat ∧ op.toNat ≤ 63) ∨ (74 ≤ op.toNat ∧ op.toNat ≤ 95) ∨
        (103 ≤ op.toNat ∧ op.toNat ≤ 125) := by
  revert op
  decide

/-- Settles O4: the default map leaves out exactly the four ranges, and an opcode outside the map is found at the first
byte. -/
theorem illegalOpcodesRaiseAfterOneByte : Obligations.IllegalOpcodesRaiseAfterOneByte := by
  intro s hs op
  have hnone := defaultOpcodeMap_eq_none_iff (opField (s.stream 0))
  rw [toNat_opField] at hnone
  refine ⟨fun h => ?_, fun h => ?_⟩
  · have he : decodeAt standardConfig s.stream = .error .illegalOpcode := by
      rw [decodeAt, show standardConfig.opcodeMap.opcodeOf _ = none from hnone.2 h]
    exact step_of_decodeAt_error hs he
  · refine Option.ne_none_iff_exists'.1 fun h' => ?_
    have := hnone.1 h'
    omega

/-- On a selector byte the default policy is the alternative one where the byte names a slot, and ends the decoding
where it does not (R75). -/
theorem selectorAt_fault_eq (src : Nat → Byte) (k : Nat) :
    selectorAt .fault src k =
      if 7 < (src k).toNat then .error (.illegalSelector k) else selectorAt .mask src k := by
  split
  case isTrue h => rw [selectorAt, (SelectorPolicy.select_fault_eq_none _).2 h]
  case isFalse h =>
    have hlow : (src k &&& 7).toNat = (src k).toNat := by
      rw [BitVec.toNat_and, show (7 : Byte).toNat = 2 ^ 3 - 1 from rfl, Nat.and_two_pow_sub_one_eq_mod]
      exact Nat.mod_eq_of_lt (by omega)
    simp only [selectorAt, SelectorPolicy.select, hlow]

theorem selectorAt_mask_ok (src : Nat → Byte) (k : Nat) : ∃ r, selectorAt .mask src k = .ok r := by
  obtain ⟨r, hr⟩ := Option.isSome_iff_exists.1 (SelectorPolicy.select_mask_isSome (src k))
  exact ⟨r, selectorAt_eq_ok.2 hr⟩

theorem addrAt_mask_ok (m : Bool) (src : Nat → Byte) (k : Nat) : ∃ addr, addrAt .mask m src k = .ok addr := by
  cases m with
  | false => exact ⟨_, rfl⟩
  | true =>
    obtain ⟨r, hr⟩ := selectorAt_mask_ok src k
    exact ⟨.ind r, by simp [addrAt, hr, Except.map]⟩

/-- Under the alternative policy operands are never illegal (R75). -/
theorem read_mask_ok (m : Bool) (src : Nat → Byte) (sh : Shape) : ∃ i, sh.read .mask m src = .ok i := by
  obtain ⟨r, hr⟩ := selectorAt_mask_ok src 1
  obtain ⟨r', hr'⟩ := selectorAt_mask_ok src 2
  have haddr := addrAt_mask_ok m src
  cases sh with
  | f0 i => exact ⟨i, rfl⟩
  | fw make => exact ⟨_, rfl⟩
  | fr make => exact ⟨make r, by simp [Shape.read, hr, Except.map]⟩
  | frr make => exact ⟨make r r', by simp [Shape.read, hr, hr', Except.map, Except.bind]⟩
  | frw make => exact ⟨_, by simp [Shape.read, hr, Except.map]; rfl⟩
  | fa make => obtain ⟨a, ha⟩ := haddr 1; exact ⟨make a, by simp [Shape.read, ha, Except.map]⟩
  | fra make => obtain ⟨a, ha⟩ := haddr 2; exact ⟨make r a, by simp [Shape.read, hr, ha, Except.map, Except.bind]⟩
  | fwa make => obtain ⟨a, ha⟩ := haddr 3; exact ⟨_, by simp [Shape.read, ha, Except.map]; rfl⟩
  | frwa make => obtain ⟨a, ha⟩ := haddr 4; exact ⟨_, by simp [Shape.read, hr, ha, Except.map, Except.bind]; rfl⟩

/-- The first position, of those given, of a byte that is no selector (R75, R233). -/
def firstIllegal (src : Nat → Byte) (ks : List Nat) : Option Nat := ks.find? fun j => decide (7 < (src j).toNat)

/-- The default policy ends at the first illegal selector in encoding order, and without one reads as the alternative
policy does (R75, R78, R233). -/
theorem read_fault_eq (m : Bool) (src : Nat → Byte) (sh : Shape) :
    sh.read .fault m src =
      match firstIllegal src (selectorPositions sh.format m) with
      | some k => .error (.illegalSelector k)
      | none => sh.read .mask m src := by
  obtain ⟨r, hr⟩ := selectorAt_mask_ok src 1
  cases sh with
  | f0 | fw => rfl
  | fr | frw =>
    by_cases h1 : 7 < (src 1).toNat <;>
      simp [Shape.read, Shape.format, selectorPositions, firstIllegal, selectorAt_fault_eq, h1, Except.map]
  | frr =>
    by_cases h1 : 7 < (src 1).toNat <;> by_cases h2 : 7 < (src 2).toNat <;>
      simp [Shape.read, Shape.format, selectorPositions, firstIllegal, selectorAt_fault_eq, h1, h2, hr, Except.map,
        Except.bind]
  | fa =>
    cases m <;> by_cases h1 : 7 < (src 1).toNat <;>
      simp [Shape.read, Shape.format, selectorPositions, firstIllegal, addrAt, selectorAt_fault_eq, h1, Except.map]
  | fra =>
    cases m <;> by_cases h1 : 7 < (src 1).toNat <;> by_cases h2 : 7 < (src 2).toNat <;>
      simp [Shape.read, Shape.format, selectorPositions, firstIllegal, addrAt, selectorAt_fault_eq, h1, h2, hr,
        Except.map, Except.bind]
  | fwa =>
    cases m <;> by_cases h3 : 7 < (src 3).toNat <;>
      simp [Shape.read, Shape.format, selectorPositions, firstIllegal, addrAt, selectorAt_fault_eq, h3, Except.map]
  | frwa =>
    cases m <;> by_cases h1 : 7 < (src 1).toNat <;> by_cases h4 : 7 < (src 4).toNat <;>
      simp [Shape.read, Shape.format, selectorPositions, firstIllegal, addrAt, selectorAt_fault_eq, h1, h4, hr,
        Except.map, Except.bind]

theorem step_of_read_ok {s : State} {o : Opcode} {i : Instr} (hs : s.Fetching)
    (ho : defaultOpcodeMap.opcodeOf (opField (s.stream 0)) = some o)
    (hi : o.shape.read .fault (modeBit (s.stream 0)) s.stream = .ok i) : i.opcode = o ∧ step s = exec i s := by
  have hd : decodeAt standardConfig s.stream = .ok i := by
    rw [decodeAt, show standardConfig.opcodeMap.opcodeOf _ = some o from ho]
    exact hi
  obtain ⟨ops, hops, -⟩ := read_eq_ok.1 hi
  exact ⟨(opcode_operands_of_instrOf hops).1, stepWith_of_decodeAt standardConfig s i hs hd⟩

/-- Settles O5: the default policy ends at the first byte above 7 among the selector positions, which stand in encoding
order; without one it reads as the policy that never fails. -/
theorem firstIllegalSelectorRaises : Obligations.FirstIllegalSelectorRaises := by
  intro s o hs ho ks
  have hread := read_fault_eq (modeBit (s.stream 0)) s.stream o.shape
  refine ⟨fun k hk => ?_, fun hall => ?_⟩
  · rw [show firstIllegal s.stream (selectorPositions o.shape.format _) = some k from hk] at hread
    have he : decodeAt standardConfig s.stream = .error (.illegalSelector k) := by
      rw [decodeAt, show standardConfig.opcodeMap.opcodeOf _ = some o from ho]
      exact hread
    exact step_of_decodeAt_error hs he
  · have hnone : firstIllegal s.stream ks = none :=
      List.find?_eq_none.2 fun j hj => by simpa using hall j hj
    rw [show firstIllegal s.stream (selectorPositions o.shape.format _) = none from hnone] at hread
    obtain ⟨i, hi⟩ := read_mask_ok (modeBit (s.stream 0)) s.stream o.shape
    exact ⟨i, step_of_read_ok hs ho (hread.trans hi)⟩

/-- Settles O6: each list of bytes is decoded by evaluation. -/
theorem specimenBytesDecode : Obligations.SpecimenBytesDecode :=
  ⟨rfl, rfl, rfl, rfl, rfl, rfl, rfl, rfl, rfl, rfl, rfl, rfl, rfl⟩

end Sys2Proof.Proofs

end

/-! PROOFS. The instruction stream (30_encoding.md R70 to R79, 60_exceptions.md R210): the step of the bytes at `pc`,
and the fetch primitives against the decoder. -/

section

namespace Sys2Proof.Proofs

open Sys2Proof.Machine Sys2Proof.Statements

/-! ### The stream at `pc` -/

/-- Settles O10: the decoder reads six bytes at most, so what the list decodes to is what the stream decodes to. -/
theorem stepRunsTheDecodedInstruction : Obligations.StepRunsTheDecodedInstruction := by
  intro s i rest hs hd
  obtain ⟨hat, -, -⟩ := decodeWith_cons_eq_ok.1 hd
  refine stepWith_of_decodeAt standardConfig s i hs (.trans (decodeAt_congr standardConfig _ _ fun k hk => ?_) hat)
  interval_cases k <;> rfl

theorem decodeAt_of_decodeTableWord {nbits w : Nat} {i : Instr} (h : decodeTableWord nbits w = some i) :
    decodeAt standardConfig (tableByte nbits w) = .ok i := by
  unfold decodeTableWord at h
  split at h
  case h_1 j hj => exact hj.trans (congrArg _ (Option.some.inj h))
  case h_2 => cases h

theorem withFetchWord_fetching (s : State) (nbits w : Nat) : (s.withFetchWord nbits w).Fetching :=
  s.readyToFetch_fetching

/-- The stream of a state with an instruction placed is the bytes placed (log 10). -/
theorem stream_withFetchWord {s : State} (h : Memory.wf s.mem = true) (hapart : StreamApart s.mem.size s.pc 6)
    (nbits w k : Nat) (hk : k < 6) : (s.withFetchWord nbits w).stream k = tableByte nbits w k := by
  have hbyte := Memory.readByte_writeStream s.mem s.pc
    [tableByte nbits w 0, tableByte nbits w 1, tableByte nbits w 2, tableByte nbits w 3, tableByte nbits w 4,
      tableByte nbits w 5] k h hk hapart
  refine hbyte.trans ?_
  interval_cases k <;> rfl

/-- Settles O11: the six bytes placed are the six bytes the decoder can read, and nothing stands before the fetch. -/
theorem placedWordRunsNext : Obligations.PlacedWordRunsNext := by
  refine ⟨fun s nbits w i h hapart hi => ?_, fun s hsize => hsize ▸ streamApart_default s.pc 6 (by omega)⟩
  refine stepWith_of_decodeAt standardConfig _ i (withFetchWord_fetching s nbits w) ?_
  rw [decodeAt_congr standardConfig _ _ (stream_withFetchWord h hapart nbits w)]
  exact decodeAt_of_decodeTableWord hi

/-! ### The stream one primitive at a time -/

/-- What a fetch primitive answers of what the decoder reads: the value and the state `n` bytes on, or the state the
decoder's error raises (R210, R230). -/
def fetchResult {α : Type} (s : State) (n : Nat) : Except DecodeError α → Except State (α × State)
  | .ok v => .ok (v, s.fetched n)
  | .error e => .error (s.raise .illegalInstruction e.fetched)

theorem fetchResult_map {α β : Type} (s : State) (n : Nat) (x : Except DecodeError α) (f : α → β) :
    (fetchResult s n x).map (fun (a, t) => (f a, t)) = fetchResult s n (x.map f) := by
  cases x <;> rfl

theorem fetchResult_bind {α β : Type} (s : State) (m n : Nat) (x : Except DecodeError α)
    (g : α → Except DecodeError β) (f : α × State → Except State (β × State))
    (h : ∀ a, f (a, s.fetched m) = fetchResult s n (g a)) :
    (fetchResult s m x).bind f = fetchResult s n (x.bind g) := by
  cases x with
  | ok a => exact h a
  | error e => rfl

/-- `FetchSel` once `n` bytes of the instruction are fetched. -/
theorem fetchSel_fetched (s : State) (p : SelectorPolicy) (n : Nat) :
    (s.fetched n).fetchSel p s.pc (Memory.readByte s.mem s.pc.toNat) =
      fetchResult s (n + 1) (selectorAt p s.stream n) := by
  simp only [State.fetchSel, State.fetch8_fetched, selectorAt]
  cases p.select (s.stream n) <;> rfl

/-- The bytes of an address operand (R77). -/
def addrLength (m : Bool) : Nat := if m then 1 else 2

/-- The address operand of `FetchEA` once `n` bytes of the instruction are fetched. -/
theorem fetchAddr_fetched (s : State) (p : SelectorPolicy) (m : Bool) (n : Nat) :
    (s.fetched n).fetchAddr p s.pc (Memory.readByte s.mem s.pc.toNat) m =
      fetchResult s (n + addrLength m) (addrAt p m s.stream n) := by
  cases m with
  | false =>
    simp only [State.fetchAddr, State.fetch16_fetched]
    rfl
  | true =>
    simp only [State.fetchAddr, fetchSel_fetched, addrAt, if_true]
    exact fetchResult_map s (n + 1) _ _

/-- The operands fetched one primitive at a time are those the decoder reads at their positions (R70, R78, R233). -/
theorem fetchOperands_fetched (s : State) (p : SelectorPolicy) (m : Bool) (sh : Shape) :
    (s.fetched 1).fetchOperands p s.pc (Memory.readByte s.mem s.pc.toNat) m sh =
      fetchResult s (sh.format.length m) (sh.read p m s.stream) := by
  cases sh with
  | f0 i => rfl
  | fr make =>
    simp only [State.fetchOperands, fetchSel_fetched, fetchResult_map]
    rfl
  | frr make =>
    simp only [State.fetchOperands, fetchSel_fetched]
    exact fetchResult_bind s 2 3 _ _ _ fun a => by simp only [fetchSel_fetched, fetchResult_map]
  | frw make =>
    rw [State.fetchOperands, fetchSel_fetched, Shape.read]
    cases selectorAt p s.stream 1 with
    | ok a => simp only [fetchResult, Except.map, State.fetch16_fetched]; rfl
    | error e => rfl
  | fw make =>
    simp only [State.fetchOperands, State.fetch16_fetched]
    rfl
  | fa make =>
    simp only [State.fetchOperands, fetchAddr_fetched, fetchResult_map]
    cases m <;> rfl
  | fra make =>
    simp only [State.fetchOperands, fetchSel_fetched]
    refine fetchResult_bind s 2 _ _ _ _ fun a => ?_
    simp only [fetchAddr_fetched, fetchResult_map]
    cases m <;> rfl
  | fwa make =>
    simp only [State.fetchOperands, State.fetch16_fetched, fetchAddr_fetched, fetchResult_map]
    cases m <;> rfl
  | frwa make =>
    simp only [State.fetchOperands, fetchSel_fetched]
    refine fetchResult_bind s 2 _ _ _ _ fun a => ?_
    simp only [State.fetch16_fetched, fetchAddr_fetched, fetchResult_map]
    cases m <;> rfl

/-- What is read in a shape is as long as the shape says (R79). -/
theorem length_of_read {p : SelectorPolicy} {m : Bool} {src : Nat → Byte} {o : Opcode} {i : Instr}
    (h : o.shape.read p m src = .ok i) : i.length = o.format.length m := by
  obtain ⟨ops, hi, hops⟩ := read_eq_ok.1 h
  obtain ⟨rfl, rfl⟩ := opcode_operands_of_instrOf hi
  rw [Instr.length]
  cases haddr : addrOperand i with
  | some addr => rw [(mode_of_lieIn hops haddr).1]
  | none =>
    have hno := addrOperand_isSome i
    rw [haddr] at hno
    revert hno
    cases i.opcode.format <;> simp [Format.hasAddr, Format.length]

/-- Settles O9: each primitive, `n` bytes on, is the decoder's read at position `n`, so the operands are too, and the
bytes fetched are the instruction's length. -/
theorem streamFetchAgreesWithDecoder : Obligations.StreamFetchAgreesWithDecoder := by
  intro cfg s
  have h0 : s.stream 0 = Memory.readByte s.mem s.pc.toNat := by simp [State.stream]
  simp only [State.fetchInstr, State.fetch8_eq, decodeAt, h0]
  cases cfg.opcodeMap.opcodeOf (opField (Memory.readByte s.mem s.pc.toNat)) with
  | none => rfl
  | some o =>
    simp only [fetchOperands_fetched]
    cases hr : o.shape.read cfg.selectorPolicy (modeBit (Memory.readByte s.mem s.pc.toNat)) s.stream with
    | ok i => simp only [length_of_read hr]; rfl
    | error e => rfl

end Sys2Proof.Proofs

end

/-! PROOFS. The array and the stack (20_memory.md): canonical memories are determined by what they read as, and Push16
and Pop16 by their words and their frames. -/

section

namespace Sys2Proof.Proofs

open Sys2Proof.Machine Sys2Proof.Statements

/-! ### Canonical memories -/

@[simp] theorem lookup_cons_self (a : Nat) (v : Byte) (rest : List Host.Cell) :
    Memory.lookup ((a, v) :: rest) a = v := if_pos rfl

theorem lookup_cons_ne {a k : Nat} (h : a ≠ k) (v : Byte) (rest : List Host.Cell) :
    Memory.lookup ((a, v) :: rest) k = Memory.lookup rest k := if_neg h

theorem lookup_eq_zero_of_not_listed {l : List Host.Cell} {k : Nat} (h : ∀ c ∈ l, c.1 ≠ k) : Memory.lookup l k = 0 := by
  induction l with
  | nil => rfl
  | cons c rest ih =>
    obtain ⟨hc, hrest⟩ := List.forall_mem_cons.1 h
    exact (lookup_cons_ne hc c.2 rest).trans (ih hrest)

/-- A list in canonical form has nothing below its first key and a byte other than 0x00 at it, so lists that read alike
begin with the same entry. -/
theorem cells_eq_of_lookup_eq {l l' : List Host.Cell} (hs : Memory.sorted l = true) (hs' : Memory.sorted l' = true)
    (hv : ∀ c ∈ l, c.2 ≠ 0) (hv' : ∀ c ∈ l', c.2 ≠ 0) (h : ∀ k, Memory.lookup l k = Memory.lookup l' k) : l = l' := by
  induction l generalizing l' with
  | nil =>
    cases l' with
    | nil => rfl
    | cons c' rest' =>
      refine absurd ?_ (hv' c' List.mem_cons_self)
      exact (lookup_cons_self c'.1 c'.2 rest').symm.trans (h c'.1).symm
  | cons c rest ih =>
    obtain ⟨a, v⟩ := c
    obtain ⟨hvc, hvrest⟩ := List.forall_mem_cons.1 hv
    cases l' with
    | nil => exact absurd ((lookup_cons_self a v rest).symm.trans (h a)) hvc
    | cons c' rest' =>
      obtain ⟨a', v'⟩ := c'
      obtain ⟨hvc', hvrest'⟩ := List.forall_mem_cons.1 hv'
      obtain ⟨habove, hsrest⟩ := (Memory.sorted_cons _ _).1 hs
      obtain ⟨habove', hsrest'⟩ := (Memory.sorted_cons _ _).1 hs'
      have hle : ¬ a < a' := fun hlt => by
        have hzero := Memory.lookup_below _ hs' a fun d hd => by cases hd; exact hlt
        exact hvc ((lookup_cons_self a v rest).symm.trans ((h a).trans hzero))
      have hge : ¬ a' < a := fun hlt => by
        have hzero := Memory.lookup_below _ hs a' fun d hd => by cases hd; exact hlt
        exact hvc' ((lookup_cons_self a' v' rest').symm.trans ((h a').symm.trans hzero))
      obtain rfl : a = a' := by omega
      obtain rfl : v = v' := by simpa using h a
      have hrest (k : Nat) : Memory.lookup rest k = Memory.lookup rest' k := by
        by_cases hk : a = k
        · subst hk
          rw [Memory.lookup_below rest hsrest a habove, Memory.lookup_below rest' hsrest' a habove']
        · have := h k
          rwa [lookup_cons_ne hk, lookup_cons_ne hk] at this
      rw [ih hsrest hsrest' hvrest hvrest' hrest]

/-- Settles O14: a canonical memory lists only addresses below its size, which is at most 2^16, so the 16-bit addresses
reach every entry. -/
theorem canonicalMemoriesThatReadAlikeAreEqual : Obligations.CanonicalMemoriesThatReadAlikeAreEqual := by
  intro m m' hm hm' hsize hread
  obtain ⟨hlegal, hs, hcells⟩ := (Memory.wf_iff m).1 hm
  obtain ⟨-, hs', hcells'⟩ := (Memory.wf_iff m').1 hm'
  have hlookup (k : Nat) : Memory.lookup m.cells k = Memory.lookup m'.cells k := by
    by_cases hk : k < m.size
    · have h := hread (BitVec.ofNat 16 k)
      have hlt : k < 2 ^ 16 := Nat.lt_of_lt_of_le hk hlegal.2
      rw [BitVec.toNat_ofNat, Nat.mod_eq_of_lt hlt, Memory.readByte, Memory.readByte, ← hsize, Nat.mod_eq_of_lt hk] at h
      exact h
    · rw [lookup_eq_zero_of_not_listed fun c hc => ?_, lookup_eq_zero_of_not_listed fun c hc => ?_]
      · have := (hcells' c hc).1; omega
      · have := (hcells c hc).1; omega
  have hcells_eq := cells_eq_of_lookup_eq hs hs' (fun c hc => (hcells c hc).2) (fun c hc => (hcells' c hc).2) hlookup
  obtain ⟨size, cells⟩ := m
  obtain ⟨size', cells'⟩ := m'
  cases hsize
  cases hcells_eq
  rfl

/-! ### The stack -/

/-- The word memory holds at an address, in the terms of the statements. -/
theorem wordIn_eq (s : State) (ea : Word) : wordIn s ea = Memory.readWord s.mem ea :=
  (wordOfBytes_eq_ofNat _ _).symm

/-- Settles O15: the store is that of a word below `sp`, and the rest of the state is that of the push. -/
theorem pushStoresBelowTheStackTop : Obligations.PushStoresBelowTheStackTop := fun s v h =>
  ⟨storesWord_of_mem_eq_writeWord h (State.push16_mem s v),
    { regs := State.push16_reg s v, status := rfl, control := ⟨rfl, rfl, rfl⟩, cycles := State.push16_cycles s v }⟩

/-- Settles O16: a pop is the read of a word, and writes only `sp`. -/
theorem popReadsTheStackTopAndRaisesSp : Obligations.PopReadsTheStackTopAndRaisesSp := fun s =>
  ⟨(State.pop16_fst s).trans (wordIn_eq s s.sp).symm, rfl⟩

@[simp] theorem sub_two_add_two (a : Word) : a - 2 + 2 = a := BitVec.sub_add_cancel a 2

/-- Settles O17: the pop reads back the word the push stored, which is the register as PUSH read it. -/
theorem pushThenPopRestoresTheRegister : Obligations.PushThenPopRestoresTheRegister := by
  intro s r h
  refine ⟨_, _, exec_push r s, exec_pop r _, fun q => ?_⟩
  have hword : Memory.readWord ((s.fetchedAs .fr false).push16 ((s.fetchedAs .fr false).reg r)).mem
      ((s.fetchedAs .fr false).push16 ((s.fetchedAs .fr false).reg r)).sp = (s.fetchedAs .fr false).reg r :=
    Memory.readWord_writeWord s.mem (s.sp - 2) _ h
  rw [hword]
  by_cases hr : q = r
  · subst hr
    by_cases hpc : q = .pc <;> simp [hpc, Format.length]
  · by_cases hpc : q = .pc
    · have hne : r ≠ .pc := fun e => hr (hpc.trans e.symm)
      simp [hpc, hne, Format.length, BitVec.add_assoc]
    · by_cases hsp : q = .sp
      · have hne : r ≠ .sp := fun e => hr (hsp.trans e.symm)
        simp [hsp, hne]
      · simp [hr, hpc, hsp]

/-! ### The operands of a fetched instruction in the terms of the statements -/

/-- After the fetch every register reads as the instruction reads it (R25). -/
theorem fetchedAs_reg (s : State) (f : Format) (m : Bool) (r : Reg) :
    (s.fetchedAs f m).reg r = valueAt s (f.length m) r := State.fetchedAs_reg s f m r

theorem fetchedAs_ea (s : State) (f : Format) (m : Bool) (addr : AddrOperand) :
    (s.fetchedAs f m).ea addr = eaAt s (f.length m) addr := by
  cases addr with
  | imm a => rfl
  | ind r => exact fetchedAs_reg s f m r

theorem length_fa (addr : AddrOperand) : Format.fa.length addr.mode = lenOf 3 addr := by cases addr <;> rfl

theorem length_fra (addr : AddrOperand) : Format.fra.length addr.mode = lenOf 4 addr := by cases addr <;> rfl

theorem length_fwa (addr : AddrOperand) : Format.fwa.length addr.mode = lenOf 5 addr := by cases addr <;> rfl

theorem length_frwa (addr : AddrOperand) : Format.frwa.length addr.mode = lenOf 6 addr := by cases addr <;> rfl

/-! ### A call and its return -/

/-- What RTN leaves, where the word at `sp` is known (R180). -/
theorem exec_rtn_of_wordIn {s : State} {v : Word} (h : wordIn s s.sp = v) :
    ∃ u, exec .rtn s = .next u ∧ u.pc = v ∧ u.sp = s.sp + 2 ∧ ∀ q, q ≠ .pc → q ≠ .sp → u.reg q = s.reg q := by
  rw [wordIn_eq] at h
  refine ⟨_, exec_rtn s, ?_, ?_, fun q hpc hsp => ?_⟩ <;> simp [*]

/-- Settles O18: the word at `sp` when the RTN runs is the one the JSR pushed there. -/
theorem returnGoesPastTheCall : Obligations.ReturnGoesPastTheCall := by
  intro s addr h
  refine ⟨_, exec_jsr addr s, ?_, fun t' hsp hword => ?_⟩
  · simp [fetchedAs_ea, length_fa]
  · have hpushed : wordIn t' t'.sp = s.pc + BitVec.ofNat 16 (lenOf 3 addr) := by
      rw [hword, wordIn_eq, ← length_fa]
      exact Memory.readWord_writeWord s.mem (s.sp - 2) _ h
    obtain ⟨u, hu, hpc, husp, hregs⟩ := exec_rtn_of_wordIn hpushed
    exact ⟨u, hu, hpc, by simp [husp, hsp], hregs⟩

end Sys2Proof.Proofs

end

/-! PROOFS. Arithmetic (41_arithmetic.md): the flags of an unbounded result, and what the four kinds of arithmetic
instruction write. -/

section

namespace Sys2Proof.Proofs

open Sys2Proof.Machine Sys2Proof.Statements

/-! ### The flags -/

theorem trunc16_eq_zero_iff (r : Int) : trunc16 r = 0 ↔ r % 65536 = 0 := by
  rw [← toNat_trunc16, ← BitVec.toNat_inj]
  exact Int.natCast_eq_zero.symm

theorem trunc16_getLsbD_15 (r : Int) : (trunc16 r).getLsbD 15 = true ↔ 32768 ≤ r % 65536 := by
  rw [getLsbD_15, decide_eq_true_iff, ← toNat_trunc16]
  omega

theorem carry_iff (kind : ArithKind) (r : Int) :
    kind.carry r = true ↔ ((kind = .add ∨ kind = .mul) ∧ 65535 < r) ∨ (kind = .sub ∧ r < 0) := by
  cases kind <;> simp [ArithKind.carry]

theorem overflow_iff (kind : ArithKind) (sr : Int) : kind.overflow sr = true ↔ kind ≠ .div ∧ Overflows sr := by
  cases kind <;> simp [ArithKind.overflow, Overflows]

/-- The bits that ArithFlags keeps (R110). -/
theorem arithFlags_getLsbD_other (kind : ArithKind) (r sr : Int) (v : Byte) {k : Nat}
    (hk : k = 2 ∨ k = 3 ∨ k = 4 ∨ k = 7) : (arithFlags kind r sr v).getLsbD k = v.getLsbD k := by
  rw [arithFlags_getLsbD]
  rcases hk with rfl | rfl | rfl | rfl <;> rfl

/-- Settles O23: the flags are written one bit each, and the low word of the result gives its sign and whether it is
0. -/
theorem arithFlagsFollowTheUnboundedResult : Obligations.ArithFlagsFollowTheUnboundedResult := by
  intro kind r sr status v
  have hz : v.getLsbD 5 = decide (trunc16 r = 0) := arithFlags_getLsbD kind r sr status 5
  have hn : v.getLsbD 0 = (trunc16 r).getLsbD 15 := arithFlags_getLsbD kind r sr status 0
  have hc : v.getLsbD 6 = kind.carry r := arithFlags_getLsbD kind r sr status 6
  have ho : v.getLsbD 1 = kind.overflow sr := arithFlags_getLsbD kind r sr status 1
  rw [hz, hn, hc, ho, decide_eq_true_iff]
  exact ⟨trunc16_eq_zero_iff r, trunc16_getLsbD_15 r, carry_iff kind r, overflow_iff kind sr,
    fun _ => arithFlags_getLsbD_other kind r sr status⟩

/-! ### The arithmetic instructions -/

/-- An arithmetic operation after the fetch, by its unbounded results: `res` is the low word of the one, and the carry
and the overflow are read off the two (R110). -/
theorem arithEffect_fetchedAs (s : State) (f : Format) (m : Bool) (kind : ArithKind) (a : Reg) {va vb : Word}
    {res : Nat} {carry overflow : Prop} (hres : (kind.result va vb).1 % 65536 = res)
    (hcarry : ((kind = .add ∨ kind = .mul) ∧ 65535 < (kind.result va vb).1) ∨
      (kind = .sub ∧ (kind.result va vb).1 < 0) ↔ carry)
    (hoverflow : kind ≠ .div ∧ Overflows (kind.result va vb).2 ↔ overflow) :
    ArithEffect s ((s.fetchedAs f m).arith kind a va vb) (f.length m) a res carry overflow := by
  obtain ⟨hz, hn, hc, ho, hother⟩ := arithFlagsFollowTheUnboundedResult kind (kind.result va vb).1
    (kind.result va vb).2 s.status
  have hword : trunc16 (kind.result va vb).1 = BitVec.ofNat 16 res := by
    apply BitVec.eq_of_toNat_eq
    have := toNat_trunc16 (kind.result va vb).1
    rw [BitVec.toNat_ofNat]
    omega
  have hstatus := State.arith_status (s.fetchedAs f m) kind a va vb
  rw [State.fetchedAs_status] at hstatus
  constructor
  case regs => intro q; rw [State.arith_reg, hword, fetchedAs_reg]
  case negative => rw [hstatus, hn]; omega
  case overflow => rw [hstatus, ho, hoverflow]
  case zero => rw [hstatus, hz]; omega
  case carry => rw [hstatus, hc, hcarry]
  case otherBits => intro k hk; rw [hstatus, hother k hk]
  case memory => exact ⟨by simp, fun k => by simp⟩
  case control => exact ⟨by simp, by simp, by simp⟩
  case cycles => simp [Charged]

/-! Each family's results are the statement's: the unsigned ones by arithmetic, the signed ones because the spec's
two's-complement reading is the library's. -/

theorem addEffect_fetchedAs (s : State) (f : Format) (m : Bool) (a : Reg) (va vb : Word) :
    AddEffect s ((s.fetchedAs f m).arith .add a va vb) (f.length m) a va vb := by
  apply arithEffect_fetchedAs <;> simp only [ArithKind.result, sext16_eq_toInt]
  · omega
  · simp; omega
  · simp

theorem subEffect_fetchedAs (s : State) (f : Format) (m : Bool) (a : Reg) (va vb : Word) :
    SubEffect s ((s.fetchedAs f m).arith .sub a va vb) (f.length m) a va vb := by
  apply arithEffect_fetchedAs <;> simp only [ArithKind.result, sext16_eq_toInt]
  · omega
  · simp
  · simp

theorem mulEffect_fetchedAs (s : State) (f : Format) (m : Bool) (a : Reg) (va vb : Word) :
    MulEffect s ((s.fetchedAs f m).arith .mul a va vb) (f.length m) a va vb := by
  apply arithEffect_fetchedAs <;> simp only [ArithKind.result, sext16_eq_toInt]
  · norm_cast
  · simp; norm_cast
  · simp

theorem divEffect_fetchedAs (s : State) (f : Format) (m : Bool) (a : Reg) (va vb : Word) :
    DivEffect s ((s.fetchedAs f m).arith .div a va vb) (f.length m) a va vb := by
  have hlt : va.toNat / vb.toNat < 65536 := Nat.lt_of_le_of_lt (Nat.div_le_self _ _) va.isLt
  apply arithEffect_fetchedAs <;> simp only [ArithKind.result]
  · rw [← Nat.cast_ofNat (n := 65536), ← Int.natCast_mod, Nat.mod_eq_of_lt hlt]
  · simp
  · simp

/-- Settles O24: the three are one addition after the fetch of their bytes, every register read as the fetch leaves
it. -/
theorem addFamilyWritesSumAndFlags : Obligations.AddFamilyWritesSumAndFlags := by
  refine ⟨fun a b s => ⟨_, exec_add a b s, ?_⟩, fun a w s => ⟨_, exec_addc a w s, ?_⟩, fun a s => ⟨_, exec_inc a s, ?_⟩⟩
    <;> simp only [fetchedAs_reg]
  · exact addEffect_fetchedAs s .frr false a _ _
  · exact addEffect_fetchedAs s .frw false a _ w
  · exact addEffect_fetchedAs s .fr false a _ 1

/-- Settles O25: as the add family, with the difference. -/
theorem subFamilyWritesDifferenceAndFlags : Obligations.SubFamilyWritesDifferenceAndFlags := by
  refine ⟨fun a b s => ⟨_, exec_sub a b s, ?_⟩, fun a w s => ⟨_, exec_subc a w s, ?_⟩, fun a s => ⟨_, exec_dec a s, ?_⟩⟩
    <;> simp only [fetchedAs_reg]
  · exact subEffect_fetchedAs s .frr false a _ _
  · exact subEffect_fetchedAs s .frw false a _ w
  · exact subEffect_fetchedAs s .fr false a _ 1

/-- Settles O26: as the add family, with the product. -/
theorem mulFamilyWritesProductAndFlags : Obligations.MulFamilyWritesProductAndFlags := by
  refine ⟨fun a b s => ⟨_, exec_mul a b s, ?_⟩, fun a w s => ⟨_, exec_mulc a w s, ?_⟩⟩ <;> simp only [fetchedAs_reg]
  · exact mulEffect_fetchedAs s .frr false a _ _
  · exact mulEffect_fetchedAs s .frw false a _ w

/-- Settles O27: with the divisor, read after the fetch, other than 0 the two are one division. -/
theorem divFamilyWritesQuotientAndFlags : Obligations.DivFamilyWritesQuotientAndFlags := by
  refine ⟨fun a b s hb => ⟨_, exec_div a b s (fetchedAs_reg s .frr false b ▸ hb), ?_⟩,
    fun a w s hw => ⟨_, exec_divc a w s hw, ?_⟩⟩ <;> simp only [fetchedAs_reg]
  · exact divEffect_fetchedAs s .frr false a _ _
  · exact divEffect_fetchedAs s .frw false a _ w

/-! ### Division by zero -/

/-- A recorded fault ends the run before the next step (R36, R210). -/
theorem stepWith_of_fault (cfg : Config) {s : State} {r : FaultRecord} (h : s.fault = some r) :
    stepWith cfg s = .fault (.faulted r) := by
  simp only [stepWith, h]

/-- Settles O28: with a zero divisor the instruction is the raise after its bytes, and a recorded fault stops the next
step. -/
theorem zeroDivisorRaisesAndStops : Obligations.ZeroDivisorRaisesAndStops := by
  have hstop (s : State) (n : Nat) : ∃ r, (s.raise .divByZero n).fault = some r ∧
      step (s.raise .divByZero n) = .fault (.faulted r) := ⟨_, rfl, stepWith_of_fault standardConfig rfl⟩
  exact ⟨fun a b s hb =>
      ⟨_, exec_div_zero a b s (fetchedAs_reg s .frr false b ▸ hb), raised_raise s .divByZero 3, hstop s 3⟩,
    fun a s => ⟨_, exec_divc_zero a 0 s rfl, raised_raise s .divByZero 4, hstop s 4⟩⟩

end Sys2Proof.Proofs

end

/-! PROOFS. The other instructions (42_logical.md to 45_stack_and_status.md, RESET of 40_machine_control.md): one effect
per shared operation after the fetch, and each instruction as one of them. -/

section

namespace Sys2Proof.Proofs

open Sys2Proof.Machine Sys2Proof.Statements

/-! ### What the shared operations do after a fetch -/

theorem sameMemory_of_mem_eq {s t : State} (h : t.mem = s.mem) : SameMemory s t :=
  ⟨by rw [h], fun _ => by rw [h]⟩

/-- A fetch writes `pc` alone and charges its bytes (R24, R71). -/
theorem effect_fetchedAs (s : State) (f : Format) (m : Bool) :
    Effect s (s.fetchedAs f m) (f.length m) (valueAt s (f.length m)) s.status where
  regs := fetchedAs_reg s f m
  status := rfl
  control := ⟨rfl, rfl, rfl⟩
  cycles := rfl

/-- An effect is one of its registers' values, however they are written. -/
theorem effect_congr {s t : State} {n : Nat} {regs regs' : Reg → Word} {status : Byte}
    (h : Effect s t n regs status) (hregs : ∀ q, regs q = regs' q) : Effect s t n regs' status :=
  { h with regs := fun q => (h.regs q).trans (hregs q) }

section

variable {s t : State} {n : Nat} {regs : Reg → Word} {status : Byte}

theorem effect_setReg (h : Effect s t n regs status) (a : Reg) (v : Word) :
    Effect s (t.setReg a v) n (fun q => if q = a then v else regs q) status where
  regs q := by rw [State.reg_setReg, h.regs]
  status := (State.setReg_status t a v).trans h.status
  control := by simpa [SameControl] using h.control
  cycles := (State.setReg_cycles t a v).trans h.cycles

theorem effect_setStatus (h : Effect s t n regs status) (v : Byte) : Effect s (t.setStatus v) n regs v where
  regs q := (State.setStatus_reg t v q).trans (h.regs q)
  status := rfl
  control := h.control
  cycles := h.cycles

/-- A conditional jump writes `pc` alone and costs the same on both paths (R171, R172). -/
theorem effect_jumpIf (h : Effect s t n regs status) (taken : Bool) (ea : Word) :
    Effect s (t.jumpIf taken ea) n (fun q => if q = .pc then (if taken then ea else regs .pc) else regs q) status := by
  cases taken with
  | true => exact effect_setReg h .pc ea
  | false => exact effect_congr h fun q => by by_cases hq : q = .pc <;> simp [hq]

/-- A word read charges its two bytes (R53). -/
theorem effect_charge_two (h : Effect s t n regs status) : Effect s (t.charge 2) (n + 2) regs status where
  regs q := (State.charge_reg t 2 q).trans (h.regs q)
  status := h.status
  control := h.control
  cycles := charged_trans h.cycles (State.charge_cycles t 2)

/-- A word stored charges its two bytes (R54). -/
theorem effect_memWrite16 (h : Effect s t n regs status) (ea v : Word) :
    Effect s (t.memWrite16 ea v) (n + 2) regs status where
  regs q := (State.memWrite16_reg t ea v q).trans (h.regs q)
  status := h.status
  control := h.control
  cycles := charged_trans h.cycles (State.memWrite16_cycles t ea v)

theorem effect_pop16 (h : Effect s t n regs status) :
    Effect s t.pop16.2 (n + 2) (fun q => if q = .sp then t.sp + 2 else regs q) status where
  regs q := by rw [State.pop16_reg, h.regs]
  status := h.status
  control := h.control
  cycles := charged_trans h.cycles (State.pop16_cycles t)

end

/-! ### Logical and shift -/

theorem and_00FF (v : Word) : v &&& 0x00FF = BitVec.ofNat 16 (v.toNat % 256) := by
  apply BitVec.eq_of_toNat_eq
  rw [BitVec.toNat_and, show (0x00FF : Word).toNat = 2 ^ 8 - 1 from rfl, Nat.and_two_pow_sub_one_eq_mod,
    BitVec.toNat_ofNat]
  omega

/-- Settles O29: the mask is the remainder modulo 256. -/
theorem uxtKeepsTheLowByte : Obligations.UxtKeepsTheLowByte := by
  intro a s
  refine ⟨_, exec_uxt a s, sameMemory_of_mem_eq (State.setReg_mem _ a _), ?_⟩
  rw [← and_00FF, fetchedAs_reg]
  exact effect_setReg (effect_fetchedAs s .fr false) a _

theorem shiftLeft_eq_ofNat (v w : Word) : shiftLeft v w = BitVec.ofNat 16 (v.toNat * 2 ^ w.toNat % 65536) := by
  apply BitVec.eq_of_toNat_eq
  rw [toNat_shiftLeft, BitVec.toNat_ofNat]
  exact (Nat.mod_mod _ _).symm

theorem shiftRight_eq_ofNat (v w : Word) : shiftRight v w = BitVec.ofNat 16 (v.toNat / 2 ^ w.toNat) := by
  rw [← toNat_shiftRight, BitVec.ofNat_toNat, BitVec.setWidth_eq]

/-- Settles O30: the shifts are the product and the quotient by 2 to the whole count. -/
theorem shiftsUseTheWholeCount : Obligations.ShiftsUseTheWholeCount := by
  intro a w s
  refine ⟨⟨_, exec_lsl a w s, sameMemory_of_mem_eq (State.setReg_mem _ a _), ?_⟩,
    ⟨_, exec_lsr a w s, sameMemory_of_mem_eq (State.setReg_mem _ a _), ?_⟩⟩
  · rw [← shiftLeft_eq_ofNat, fetchedAs_reg]
    exact effect_setReg (effect_fetchedAs s .frw false) a _
  · rw [← shiftRight_eq_ofNat, fetchedAs_reg]
    exact effect_setReg (effect_fetchedAs s .frw false) a _

/-! ### Data movement -/

/-- Settles O31: both write one register after the fetch. -/
theorem registerLoadsCopyTheValue : Obligations.RegisterLoadsCopyTheValue := by
  refine ⟨fun a b s => ⟨_, exec_ldr a b s, sameMemory_of_mem_eq (State.setReg_mem _ a _), ?_⟩,
    fun a w s => ⟨_, exec_ldc a w s, sameMemory_of_mem_eq (State.setReg_mem _ a _),
      effect_setReg (effect_fetchedAs s .frw false) a w⟩⟩
  rw [fetchedAs_reg]
  exact effect_setReg (effect_fetchedAs s .frr false) a _

/-- Settles O32: the word at the effective address is written to one register after the fetch. -/
theorem ldmLoadsTheWordAtTheAddress : Obligations.LdmLoadsTheWordAtTheAddress := by
  intro a addr s
  rw [← length_fra]
  refine ⟨_, exec_ldm a addr s, sameMemory_of_mem_eq (State.setReg_mem _ a _), ?_⟩
  rw [fetchedAs_ea, ← wordIn_eq]
  exact effect_setReg (effect_charge_two (effect_fetchedAs s .fra addr.mode)) a _

/-- Settles O33: both are one word stored after the fetch, which leaves memory as it was. -/
theorem storesWriteOneWord : Obligations.StoresWriteOneWord := by
  constructor
  · intro a addr s h
    rw [← length_fra]
    refine ⟨_, exec_strm a addr s, ?_, effect_memWrite16 (effect_fetchedAs s .fra addr.mode) _ _⟩
    rw [fetchedAs_ea, fetchedAs_reg]
    exact storesWord_of_mem_eq_writeWord h rfl
  · intro w addr s h
    rw [← length_fwa]
    refine ⟨_, exec_stcm w addr s, ?_, effect_memWrite16 (effect_fetchedAs s .fwa addr.mode) _ _⟩
    rw [fetchedAs_ea]
    exact storesWord_of_mem_eq_writeWord h rfl

/-! ### Control transfer -/

/-- Only `pc` reads differently after the fetch (R25). -/
theorem valueAt_ne_pc {q : Reg} (h : q ≠ .pc) (s : State) (len : Nat) : valueAt s len q = s.reg q := if_neg h

/-- An instruction that writes `pc` leaves no trace of the fetch in the registers. -/
theorem ite_pc_valueAt (s : State) (len : Nat) (v : Word) (q : Reg) :
    (if q = .pc then v else valueAt s len q) = if q = .pc then v else s.reg q :=
  ite_congr rfl (fun _ => rfl) fun h => valueAt_ne_pc h s len

/-- Settles O34: a jump is the write of `pc` after the fetch. -/
theorem jmpGoesToTheEffectiveAddress : Obligations.JmpGoesToTheEffectiveAddress := by
  intro addr s
  rw [← length_fa]
  refine ⟨_, exec_jmp addr s, sameMemory_of_mem_eq (State.setReg_mem _ .pc _), ?_⟩
  rw [fetchedAs_ea]
  exact effect_congr (effect_setReg (effect_fetchedAs s .fa addr.mode) .pc _) fun q => ite_pc_valueAt s _ _ q

/-- The effect of a conditional jump after the fetch, whatever its condition (R171, R172). -/
theorem effect_fetchedAs_jumpIf (s : State) (f : Format) (m : Bool) (taken : Bool) (addr : AddrOperand) :
    Effect s ((s.fetchedAs f m).jumpIf taken ((s.fetchedAs f m).ea addr)) (f.length m)
      (fun q => if q = .pc then (if taken then eaAt s (f.length m) addr else s.pc + BitVec.ofNat 16 (f.length m))
        else s.reg q) s.status := by
  rw [fetchedAs_ea]
  exact effect_congr (effect_jumpIf (effect_fetchedAs s f m) taken _) fun q => ite_pc_valueAt s _ _ q

/-- Settles O35: the condition is on the register as the fetch leaves it. -/
theorem jrzJumpsWhenTheRegisterIsZero : Obligations.JrzJumpsWhenTheRegisterIsZero := by
  intro a addr s
  rw [← length_fra]
  refine ⟨_, exec_jrz a addr s, sameMemory_of_mem_eq (State.jumpIf_mem _ _ _), ?_⟩
  refine effect_congr (effect_fetchedAs_jumpIf s .fra addr.mode _ addr) fun q => ?_
  simp only [fetchedAs_reg, decide_eq_true_eq]

/-- Settles O36: the six are one jump under six conditions, each on the register as the fetch leaves it. -/
theorem compareJumpsFollowUnsignedOrder : Obligations.CompareJumpsFollowUnsignedOrder := by
  intro a w addr s
  rw [← length_frwa]
  intro len v goes
  have hgoes {i : Instr} {c taken : Bool} (hc : c = taken)
      (h : exec i s = .next ((s.fetchedAs .frwa addr.mode).jumpIf c ((s.fetchedAs .frwa addr.mode).ea addr))) :
      goes i taken :=
    hc ▸ ⟨_, h, sameMemory_of_mem_eq (State.jumpIf_mem _ _ _), effect_fetchedAs_jumpIf s .frwa addr.mode c addr⟩
  have hv : ((s.fetchedAs .frwa addr.mode).reg a).toNat = v := by rw [fetchedAs_reg]
  have heq : decide ((s.fetchedAs .frwa addr.mode).reg a = w) = (v == w.toNat) := by
    rw [← hv, Bool.eq_iff_iff, decide_eq_true_iff, beq_iff_eq, BitVec.toNat_inj]
  refine ⟨hgoes heq (exec_jre a w addr s), hgoes ?_ (exec_jrn a w addr s), hgoes ?_ (exec_jrg a w addr s),
    hgoes ?_ (exec_jrge a w addr s), hgoes ?_ (exec_jrl a w addr s), hgoes ?_ (exec_jrle a w addr s)⟩
  · rw [decide_not, heq]
    rfl
  all_goals rw [hv]

/-- Settles O37: the push is that of the address past the operand, and the target is the one read before it. -/
theorem jsrPushesTheReturnAddress : Obligations.JsrPushesTheReturnAddress := by
  intro addr s h
  rw [← length_fa]
  refine ⟨_, exec_jsr addr s, storesWord_of_mem_eq_writeWord h (State.setReg_mem _ .pc _), ?_⟩
  rw [fetchedAs_ea]
  refine effect_congr (effect_setReg (effect_fetchedAs_push16 s .fa addr.mode _) .pc _) fun q => ?_
  by_cases hq : q = .pc
  · simp only [hq, if_true]
  · simp only [hq, if_false, valueAt_ne_pc hq]

/-- Settles O38: RTN is a pop into `pc`, and format F0 has no operand that bit 7 selects. -/
theorem rtnPopsThePc : Obligations.RtnPopsThePc := by
  refine ⟨fun s => ⟨_, exec_rtn s, sameMemory_of_mem_eq (State.setReg_mem _ .pc _), ?_⟩,
    fun s hs hb => step_of_opcodeByte_f0 hs hb rfl rfl⟩
  rw [← wordIn_eq]
  refine effect_congr (effect_setReg (effect_pop16 (effect_fetchedAs s .f0 false)) .pc _) fun q => ?_
  by_cases hq : q = .pc
  · simp only [hq, if_true]
  · simp only [hq, if_false, valueAt_ne_pc hq, State.fetchedAs_sp]

/-! ### Stack and status -/

theorem zext16_eq_ofNat (v : Byte) : zext16 v = BitVec.ofNat 16 v.toNat := by
  apply BitVec.eq_of_toNat_eq
  rw [zext16, BitVec.toNat_setWidth, BitVec.toNat_ofNat]

/-- Settles O39: both are a push after the fetch. -/
theorem pushAndPushsStoreTheirWord : Obligations.PushAndPushsStoreTheirWord := by
  refine ⟨fun a s h => ⟨_, exec_push a s, ?_, effect_fetchedAs_push16 s .fr false _⟩,
    fun s h => ⟨_, exec_pushs s, ?_, effect_fetchedAs_push16 s .f0 false _⟩⟩
  · rw [fetchedAs_reg]
    exact storesWord_fetchedAs_push16 h .fr false _
  · rw [← zext16_eq_ofNat]
    exact storesWord_fetchedAs_push16 h .f0 false _

/-- Settles O41: POP is a pop and then the write of the register. -/
theorem popLoadsTheRegister : Obligations.PopLoadsTheRegister := by
  intro a s
  rw [wordIn_eq]
  exact ⟨_, exec_pop a s, sameMemory_of_mem_eq (State.setReg_mem _ a _),
    effect_setReg (effect_pop16 (effect_fetchedAs s .fr false)) a _⟩

/-- Settles O42: the low byte of the word at `sp` is the byte at `sp`. -/
theorem popsLoadsTheWholeStatusByte : Obligations.PopsLoadsTheWholeStatusByte := by
  intro s
  rw [← Memory.loByte_readWord]
  exact ⟨_, exec_pops s, sameMemory_of_mem_eq rfl, effect_setStatus (effect_pop16 (effect_fetchedAs s .f0 false)) _⟩

/-- Settles O43: the enable bit is bit 4 of the status byte. -/
theorem seiAndCliWriteOnlyTheEnableBit : Obligations.SeiAndCliWriteOnlyTheEnableBit := fun s =>
  ⟨⟨_, exec_sei s, sameMemory_of_mem_eq rfl, effect_setStatus (effect_fetchedAs s .f0 false) _⟩,
    ⟨_, exec_cli s, sameMemory_of_mem_eq rfl, effect_setStatus (effect_fetchedAs s .f0 false) _⟩⟩

/-! ### Reset -/

/-- Settles O20: every field is that of the reset state but the counter, which the fetch of one byte has charged. -/
theorem resetInstructionLeavesTheResetState : Obligations.ResetInstructionLeavesTheResetState := by
  intro s
  refine ⟨_, exec_reset s, fun q => ?_, rfl, rfl, rfl, rfl, fun _ => rfl, rfl, rfl⟩
  cases q <;> rfl

/-- Settles O21: a created core is the reset state of its size, and the host's reset between calls gives it again. -/
theorem resetStateHasTheSpecifiedValues : Obligations.ResetStateHasTheSpecifiedValues := by
  refine ⟨fun cfg => ⟨fun q => ?_, rfl, rfl, rfl, rfl, rfl, fun _ => rfl, rfl, fun h => ?_⟩,
    fun cfg other s hs hsize => ?_⟩
  · cases q <;> rfl
  · exact congrArg State.resetOf h
  · have hidle : s.cycles = none := hs
    have hcore : s.resetCore = create cfg := by
      rw [State.resetCore, create, hsize, hidle]
      rfl
    simp [hostStep, hidle, hcore]

end Sys2Proof.Proofs

end

/-! PROOFS. What any instruction and any pass of the loop can do (60_exceptions.md R210, 70_reset_and_hazards.md
R270): the cycles charged, the control fields, and from these the invariant. -/

section

namespace Sys2Proof.Proofs

open Sys2Proof.Machine Sys2Proof.Statements

/-! ### Cycles -/

/-- Every instruction charges its length and its data bytes; a division, which has no data bytes, does so on both its
paths (R223, R270). -/
theorem charged_exec {i : Instr} {s t : State} (h : exec i s = .next t) :
    Charged s t (i.length + dataBytes i.opcode) := by
  cases i with
  | div a b =>
    by_cases hb : (s.fetchedAs .frr false).reg b = 0
    · cases (exec_div_zero a b s hb).symm.trans h; rfl
    · cases (exec_div a b s hb).symm.trans h; exact State.arith_cycles _ _ _ _ _
  | divc a w =>
    by_cases hw : w = 0
    · cases (exec_divc_zero a w s hw).symm.trans h; rfl
    · cases (exec_divc a w s hw).symm.trans h; exact State.arith_cycles _ _ _ _ _
  | add | sub | mul | addc | subc | mulc | inc | dec => cases h; exact State.arith_cycles _ _ _ _ _
  | ldr | uxt | lsl | lsr | ldc => cases h; exact State.setReg_cycles _ _ _
  | jre | jrn | jrg | jrge | jrl | jrle | jrz => cases h; exact State.jumpIf_cycles _ _ _
  | ldm a addr => cases h; exact (effect_setReg (effect_charge_two (effect_fetchedAs s .fra addr.mode)) a _).cycles
  | strm a addr => cases h; exact (effect_memWrite16 (effect_fetchedAs s .fra addr.mode) _ _).cycles
  | stcm w addr => cases h; exact (effect_memWrite16 (effect_fetchedAs s .fwa addr.mode) _ _).cycles
  | jsr addr => cases h; exact (effect_setReg (effect_fetchedAs_push16 s .fa addr.mode _) .pc _).cycles
  | push | pushc | pushs => cases h; exact (effect_fetchedAs_push16 s _ _ _).cycles
  | rtn => cases h; exact (effect_pop16 (effect_fetchedAs s .f0 false)).cycles
  | pop a => cases h; exact (effect_setReg (effect_pop16 (effect_fetchedAs s .fr false)) a _).cycles
  | pops => cases h; exact (effect_pop16 (effect_fetchedAs s .f0 false)).cycles
  | noop | jmp | sei | cli | reset | halt => cases h; rfl

theorem dataBytes_of_dividesByZero {s : State} {i : Instr} (h : DividesByZero s i) : dataBytes i.opcode = 0 := by
  cases i with
  | div | divc => rfl
  | _ => cases h

/-- Settles O44: the cost is length and data bytes, and a division has no data bytes. -/
theorem everyInstructionChargesTheBytesItTouches : Obligations.EveryInstructionChargesTheBytesItTouches := by
  intro i s
  obtain ⟨t, ht⟩ := exec_isNext i s
  refine ⟨t, ht, fun _ => charged_exec ht, fun hzero => ?_⟩
  have := charged_exec ht
  rwa [dataBytes_of_dividesByZero hzero] at this

/-! ### The control fields -/

/-- What an instruction can do to the pending byte, the halted flag and the fault record: RESET clears them, HALT sets
the flag, a division by zero records its fault, and every other leaves them (R101, R102, R112). -/
theorem exec_control_cases {i : Instr} {s t : State} (h : exec i s = .next t) :
    (i = .reset ∧ t = (s.fetched 1).resetCore) ∨ (i = .halt ∧ t = { s.fetched 1 with halted := true }) ∨
      (i ≠ .reset ∧ ∃ n, t = s.raise .divByZero n) ∨ (i ≠ .reset ∧ SameControl s t) := by
  cases i with
  | reset => cases h; exact .inl ⟨rfl, rfl⟩
  | halt => cases h; exact .inr (.inl ⟨rfl, rfl⟩)
  | div a b =>
    refine .inr (.inr ?_)
    by_cases hb : (s.fetchedAs .frr false).reg b = 0
    · cases (exec_div_zero a b s hb).symm.trans h; exact .inl ⟨by simp, 3, rfl⟩
    · cases (exec_div a b s hb).symm.trans h; exact .inr ⟨by simp, by simp [SameControl]⟩
  | divc a w =>
    refine .inr (.inr ?_)
    by_cases hw : w = 0
    · cases (exec_divc_zero a w s hw).symm.trans h; exact .inl ⟨by simp, 4, rfl⟩
    · cases (exec_divc a w s hw).symm.trans h; exact .inr ⟨by simp, by simp [SameControl]⟩
  | _ => cases h; exact .inr (.inr (.inr ⟨by simp, by simp [SameControl]⟩))

theorem exec_pending {i : Instr} {s t : State} (h : exec i s = .next t) :
    t.pending = if i = .reset then 0 else s.pending := by
  rcases exec_control_cases h with ⟨rfl, rfl⟩ | ⟨rfl, rfl⟩ | ⟨hi, n, rfl⟩ | ⟨hi, hpending, -, -⟩
  · rfl
  · rfl
  · rw [if_neg hi]; rfl
  · rw [if_neg hi, hpending]

/-- A fault and a halt never stand together after an instruction that ran with neither (R210, R224). -/
theorem exec_oneEnd {i : Instr} {s t : State} (h : exec i s = .next t) (hfault : s.fault = none)
    (hhalted : s.halted = false) : t.fault = none ∨ t.halted = false := by
  rcases exec_control_cases h with ⟨-, rfl⟩ | ⟨-, rfl⟩ | ⟨-, n, rfl⟩ | ⟨-, -, hh, hf⟩
  · exact .inl rfl
  · exact .inl hfault
  · exact .inr hhalted
  · exact .inl (hf.trans hfault)

/-! ### What a step costs -/

theorem selectorPositions_le {f : Format} {m : Bool} {k : Nat} (h : k ∈ selectorPositions f m) : k ≤ 4 := by
  cases f <;> cases m <;> simp [selectorPositions] at h <;> omega

/-- Bytes that are no instruction are found out within five bytes, the opcode byte at least (R79, R81, R233). -/
theorem fetched_of_decodeAt_error {cfg : Config} {src : Nat → Byte} {e : DecodeError}
    (h : decodeAt cfg src = .error e) : 1 ≤ e.fetched ∧ e.fetched ≤ 5 := by
  unfold decodeAt at h
  split at h
  case h_2 => cases h; decide
  case h_1 o ho =>
    cases hp : cfg.selectorPolicy with
    | mask =>
      obtain ⟨i, hi⟩ := read_mask_ok (modeBit (src 0)) src o.shape
      rw [hp, hi] at h
      cases h
    | fault =>
      rw [hp, read_fault_eq] at h
      split at h
      case h_1 k hk =>
        cases h
        have := selectorPositions_le (List.mem_of_find?_eq_some hk)
        simp only [DecodeError.fetched]
        omega
      case h_2 =>
        obtain ⟨i, hi⟩ := read_mask_ok (modeBit (src 0)) src o.shape
        rw [hi] at h
        cases h

/-- The costs of R270: STCM with an immediate address has the most bytes and data bytes together. -/
theorem length_add_dataBytes_le (o : Opcode) (m : Bool) : o.format.length m + dataBytes o ≤ 7 := by
  cases o <;> cases m <;> decide

/-- Every pass charges at least one cycle and at most seven (R222, R225). -/
theorem charged_stepWith {cfg : Config} {s t : State} (h : stepWith cfg s = .next t) :
    ∃ n, 1 ≤ n ∧ n ≤ 7 ∧ Charged s t n := by
  obtain ⟨-, ⟨k, -, rfl⟩ | ⟨-, i, -, hi⟩ | ⟨-, e, he, rfl⟩⟩ := stepWith_cases cfg s t h
  · exact ⟨6, by omega, by omega, State.service_cycles s cfg.irqFrameOrder k⟩
  · have := i.length_pos
    exact ⟨i.length + dataBytes i.opcode, by omega, length_add_dataBytes_le i.opcode i.operands.mode, charged_exec hi⟩
  · obtain ⟨hpos, hle⟩ := fetched_of_decodeAt_error he
    exact ⟨e.fetched, hpos, by omega, rfl⟩

/-- A counter that admits a pass is above 0 (R224). -/
theorem budgetLeft_iff (s : State) : s.budgetLeft = true ↔ ∀ c, s.cycles = some c → 0 < c := by
  cases hc : s.cycles <;> simp [State.budgetLeft, hc]

/-- A pass in a call leaves the counter one to seven below what it was, which was above 0 (R222, R224, R225). -/
theorem stepWith_counter {cfg : Config} {s t : State} {c : Int} (h : stepWith cfg s = .next t)
    (hc : s.cycles = some c) : 0 < c ∧ ∃ n : Nat, 1 ≤ n ∧ n ≤ 7 ∧ t.cycles = some (c - n) := by
  obtain ⟨⟨-, -, hbudget⟩, -⟩ := stepWith_cases cfg s t h
  obtain ⟨n, hpos, hle, hcharged⟩ := charged_stepWith h
  refine ⟨(budgetLeft_iff s).1 hbudget c hc, n, hpos, hle, ?_⟩
  rw [hcharged, hc, Option.map_some]

/-- No pass sets a counter where there is none (R37, R222). -/
theorem stepWith_no_counter {cfg : Config} {s t : State} (h : stepWith cfg s = .next t) (hc : s.cycles = none) :
    t.cycles = none := by
  obtain ⟨n, -, -, hcharged⟩ := charged_stepWith h
  rw [hcharged, hc, Option.map_none]

/-! ### The invariant -/

theorem stepWith_wf {cfg : Config} {s t : State} (h : stepWith cfg s = .next t) (hm : Memory.wf s.mem = true) :
    Memory.wf t.mem = true := by
  obtain ⟨-, ⟨k, -, rfl⟩ | ⟨-, i, -, hi⟩ | ⟨-, e, -, rfl⟩⟩ := stepWith_cases cfg s t h
  · exact State.wf_service s _ k hm
  · exact exec_wf i s t hm hi
  · exact hm

theorem stepWith_mem_size {cfg : Config} {s t : State} (h : stepWith cfg s = .next t) : t.mem.size = s.mem.size := by
  obtain ⟨-, ⟨k, -, rfl⟩ | ⟨-, i, -, hi⟩ | ⟨-, e, -, rfl⟩⟩ := stepWith_cases cfg s t h
  · exact State.service_mem_size s _ k
  · exact exec_mem_size i s t hi
  · rfl

theorem stepWith_oneEnd {cfg : Config} {s t : State} (h : stepWith cfg s = .next t) :
    t.fault = none ∨ t.halted = false := by
  obtain ⟨⟨hfault, hhalted, -⟩, ⟨k, -, rfl⟩ | ⟨-, i, -, hi⟩ | ⟨-, e, -, rfl⟩⟩ := stepWith_cases cfg s t h
  · exact .inl ((State.service_fault s _ k).trans hfault)
  · exact exec_oneEnd hi hfault hhalted
  · exact .inr hhalted

/-- Settles O52: each part of the invariant is kept by a service, an instruction and a raise; the counter was above 0,
and no pass costs more than seven. -/
theorem stepKeepsInv : Obligations.StepKeepsInv := by
  intro cfg s t hs h
  refine ⟨⟨stepWith_wf h hs.memory, stepWith_oneEnd h, fun c hc => ?_⟩, stepWith_mem_size h⟩
  cases hcy : s.cycles with
  | none =>
    rw [stepWith_no_counter h hcy] at hc
    cases hc
  | some c0 =>
    obtain ⟨hpos, n, -, hle, hn⟩ := stepWith_counter h hcy
    cases hn.symm.trans hc
    omega

/-- Settles O51: reset memory is canonical, and there is neither a fault nor a counter. -/
theorem invHoldsAtReset : Obligations.InvHoldsAtReset :=
  ⟨⟨State.wf_reset, .inl rfl, by simp [State.reset, State.resetOf]⟩,
    fun cfg hlow hhigh => ⟨State.wf_create cfg ⟨hlow, hhigh⟩, .inl rfl, by simp [create, State.resetOf]⟩⟩

/-! ### Runs -/

/-- What every pass keeps, the loop keeps (R210). -/
theorem runLoop_keeps {cfg : Config} {P : State → Prop} (hstep : ∀ s t, P s → stepWith cfg s = .next t → P t) (n : Nat)
    {s : State} (hs : P s) : P (runLoop cfg n s) := by
  induction n generalizing s with
  | zero => exact hs
  | succ n ih =>
    by_cases hr : s.Running
    · obtain ⟨t, ht⟩ := stepWith_running cfg s hr
      rw [runLoop_succ cfg n s t ht]
      exact ih (hstep s t hs ht)
    · rwa [runLoop_of_not_running cfg _ s hr]

/-- A call keeps what every pass keeps, provided that neither the set-up nor the end of the call, which touch the
counter alone, matters to it (R210, R222). -/
theorem executeWith_keeps {cfg : Config} {P : State → Prop} (hstep : ∀ s t, P s → stepWith cfg s = .next t → P t)
    (hcycles : ∀ s c, P s → P { s with cycles := c }) (budget : Int) {s : State} (hs : P s) :
    P (executeWith cfg budget s).1 := by
  cases hf : s.fault with
  | some r => rwa [executeWith_of_fault cfg budget s r hf]
  | none =>
    rw [executeWith_of_no_fault cfg budget s hf]
    exact hcycles _ _ (runLoop_keeps hstep _ (hcycles s _ hs))

/-- The invariant without its clause on the counter. -/
def CoreInv (s : State) : Prop := Memory.wf s.mem = true ∧ (s.fault = none ∨ s.halted = false)

theorem executeWith_coreInv (cfg : Config) (budget : Int) {s : State} (hs : CoreInv s) :
    CoreInv (executeWith cfg budget s).1 :=
  executeWith_keeps (fun _ _ hs h => ⟨stepWith_wf h hs.1, stepWith_oneEnd h⟩) (fun _ _ hs => hs) budget hs

theorem executeWith_mem_size (cfg : Config) (budget : Int) (s : State) :
    (executeWith cfg budget s).1.mem.size = s.mem.size :=
  executeWith_keeps (P := fun t => t.mem.size = s.mem.size) (fun _ _ hs h => (stepWith_mem_size h).trans hs)
    (fun _ _ hs => hs) budget rfl

theorem executeWith_idle (cfg : Config) (budget : Int) {s : State} (hs : s.Idle) :
    (executeWith cfg budget s).1.Idle := by
  cases hf : s.fault with
  | some r => rwa [executeWith_of_fault cfg budget s r hf]
  | none =>
    rw [executeWith_of_no_fault cfg budget s hf]
    rfl

/-- Between calls the counter's clause of the invariant says nothing. -/
theorem inv_iff_of_idle {s : State} (h : s.Idle) : s.Inv ↔ CoreInv s := by
  refine ⟨fun hs => ⟨hs.memory, hs.oneEnd⟩, fun ⟨hmemory, hone⟩ => ⟨hmemory, hone, fun c hc => ?_⟩⟩
  cases h.symm.trans hc

/-- What a host operation that is performed does, one equation per operation (R240, R250, R256). -/
inductive HostEffect (cfg : Config) (s : State) : HostOp → State → Prop where
  | reset : HostEffect cfg s .reset s.resetCore
  | load (image : List Byte) (fits : image.length ≤ s.mem.size) :
    HostEffect cfg s (.load image) { s with mem := Memory.writeBytes s.mem 0 image }
  | writeMem (a : Word) (b : Byte) :
    HostEffect cfg s (.writeMem a b) { s with mem := Memory.writeByte s.mem a.toNat b }
  | writeReg (i : Reg) (v : Word) : HostEffect cfg s (.writeReg i v) (s.setReg i v)
  | writeStatus (v : Byte) : HostEffect cfg s (.writeStatus v) (s.setStatus v)
  | writePending (v : Byte) : HostEffect cfg s (.writePending v) { s with pending := v }
  | execute (budget : Int) : HostEffect cfg s (.execute budget) (executeWith cfg budget s).1

theorem hostEffect_of_hostStep {cfg : Config} {op : HostOp} {s t : State} {out : Option RunOutcome}
    (h : hostStep cfg op s = .ok (t, out)) : s.Idle ∧ HostEffect cfg s op t := by
  unfold hostStep at h
  split at h
  case isTrue => cases h
  case isFalse hidle =>
    refine ⟨by simpa using hidle, ?_⟩
    cases op with
    | load image =>
      rw [except_map_eq_ok] at h
      obtain ⟨u, hu, he⟩ := h
      cases he
      unfold State.load at hu
      split at hu
      case isTrue hfits => cases hu; exact .load image hfits
      case isFalse => cases hu
    | reset => cases h; exact .reset
    | writeMem a b => cases h; exact .writeMem a b
    | writeReg i v => cases h; exact .writeReg i v
    | writeStatus v => cases h; exact .writeStatus v
    | writePending v => cases h; exact .writePending v
    | execute budget => cases h; exact .execute budget

/-- Every host operation keeps the invariant, the length of the array and the place between calls (R50, R240). -/
theorem hostEffect_keeps {cfg : Config} {op : HostOp} {s t : State} (hidle : s.Idle) (hs : CoreInv s)
    (h : HostEffect cfg s op t) : t.Idle ∧ CoreInv t ∧ t.mem.size = s.mem.size := by
  obtain ⟨hmemory, hone⟩ := hs
  cases h with
  | reset => exact ⟨hidle, ⟨State.wf_resetCore s hmemory, .inl rfl⟩, rfl⟩
  | load image => exact ⟨hidle, ⟨Memory.wf_writeBytes _ _ image hmemory, hone⟩, Memory.writeBytes_size _ _ image⟩
  | writeMem a b => exact ⟨hidle, ⟨Memory.wf_writeByte _ _ b hmemory, hone⟩, rfl⟩
  | writeReg i v =>
    exact ⟨(State.setReg_cycles s i v).trans hidle, by simpa [CoreInv] using ⟨hmemory, hone⟩, by simp⟩
  | writeStatus v => exact ⟨hidle, ⟨hmemory, hone⟩, rfl⟩
  | writePending v => exact ⟨hidle, ⟨hmemory, hone⟩, rfl⟩
  | execute budget =>
    exact ⟨executeWith_idle cfg budget hidle, executeWith_coreInv cfg budget ⟨hmemory, hone⟩,
      executeWith_mem_size cfg budget s⟩

/-- Settles O53: by induction on the run, each operation being one host effect, and a call an induction on its passes.
-/
theorem hostRunsKeepInv : Obligations.HostRunsKeepInv := by
  intro cfg s t ops hs hidle hrun
  induction hrun with
  | done s => exact ⟨hs, hidle, rfl⟩
  | cons s u v op out rest first more ih =>
    obtain ⟨-, heffect⟩ := hostEffect_of_hostStep first
    obtain ⟨huidle, hu, hsize⟩ := hostEffect_keeps hidle ((inv_iff_of_idle hidle).1 hs) heffect
    obtain ⟨hv, hvidle, hvsize⟩ := ih ((inv_iff_of_idle huidle).2 hu) huidle
    exact ⟨hv, hvidle, hvsize.trans hsize⟩

end Sys2Proof.Proofs

end

/-! PROOFS. Interrupts (60_exceptions.md R212 to R218, R262): acceptance, the frame of a service, the return
sequences, and what changes the pending byte. -/

section

namespace Sys2Proof.Proofs

open Sys2Proof.Machine Sys2Proof.Statements

/-! ### Acceptance -/

/-- With INM not pending and I set, a pending maskable line means that one is accepted (R213). -/
theorem acceptedLine_of_enabled {s : State} (hinm : s.pending.getLsbD 7 = false) (hi : s.status.getLsbD 4 = true)
    (hk : ∃ k, k < 7 ∧ s.pending.getLsbD k = true) :
    ∃ k : Fin 8, k.val < 7 ∧ s.pending.getLsbD k.val = true ∧ s.acceptedLine = some k := by
  obtain ⟨j, hj, hpending⟩ := hk
  have heq : s.acceptedLine = lowestMaskable s.pending := by
    rw [acceptedLine_eq, if_neg (ne_true_of_eq_false hinm), if_pos hi]
  cases hl : lowestMaskable s.pending with
  | none => exact absurd hpending (ne_true_of_eq_false ((lowestMaskable_eq_none _).1 hl j hj))
  | some k =>
    obtain ⟨hk7, hkp, -⟩ := lowestMaskable_some _ k hl
    exact ⟨k, hk7, hkp, heq.trans hl⟩

theorem acceptedLine_inm {s : State} (hinm : s.pending.getLsbD 7 = true) : s.acceptedLine = some 7 := by
  rw [acceptedLine_eq, if_pos hinm]

/-- No line is accepted where INM is not pending and no maskable line is both pending and enabled (R213). -/
theorem acceptedLine_eq_none {s : State} (hinm : s.pending.getLsbD 7 = false)
    (hclear : s.status.getLsbD 4 = true → ∀ k, k < 7 → s.pending.getLsbD k = false) : s.acceptedLine = none := by
  cases hi : s.status.getLsbD 4 with
  | false => exact acceptedLine_eq_none_of_masked hinm hi
  | true =>
    rw [acceptedLine_eq, if_neg (ne_true_of_eq_false hinm), if_pos hi]
    exact (lowestMaskable_eq_none _).2 (hclear hi)

/-- A fetching core changes the pending byte by RESET alone (R101, R213). -/
theorem pending_of_fetch {cfg : Config} {s t : State} (hs : s.Fetching) (h : stepWith cfg s = .next t) :
    t.pending = s.pending ∨ (decodeAt cfg s.stream = .ok .reset ∧ t.pending = 0) := by
  obtain ⟨-, ⟨k, hk, -⟩ | ⟨-, i, hd, hi⟩ | ⟨-, e, -, rfl⟩⟩ := stepWith_cases cfg s t h
  · cases hs.2.symm.trans hk
  · have hpending := exec_pending hi
    by_cases hr : i = .reset
    · subst hr
      exact .inr ⟨hd, hpending⟩
    · rw [if_neg hr] at hpending
      exact .inl hpending
  · exact .inl rfl

/-- Settles O45: the accepted line is the one the two bytes name, and only a RESET that is fetched clears a pending
bit. -/
theorem acceptanceFollowsPendingAndEnable : Obligations.AcceptanceFollowsPendingAndEnable := by
  intro cfg s hs
  refine ⟨fun hinm => stepWith_service cfg s 7 hs (acceptedLine_inm hinm), fun hinm hi hk => ?_, fun hinm hclear => ?_⟩
  · obtain ⟨k, hk7, hkp, hline⟩ := acceptedLine_of_enabled hinm hi hk
    exact ⟨k, hk7, hkp, stepWith_service cfg s k hs hline⟩
  · have hfetching : s.Fetching := ⟨hs, acceptedLine_eq_none hinm hclear⟩
    exact ⟨hfetching, fun t ht => (pending_of_fetch hfetching ht).imp_right And.left⟩

/-- The status bit of I after a POPS is bit 4 of the byte at `sp`, and after a SEI it is set (R194, R195). -/
theorem enabled_after {s t : State} {i : Instr}
    (hi : i = .sei ∨ (i = .pops ∧ (Memory.readByte s.mem s.sp.toNat).getLsbD 4 = true)) (h : exec i s = .next t) :
    t.status.getLsbD 4 = true ∧ SameControl s t := by
  rcases hi with rfl | ⟨rfl, hbit⟩
  · cases h
    exact ⟨setFlag_getLsbD s.status .i 4 true, rfl, rfl, rfl⟩
  · cases h
    exact ⟨by rwa [← Memory.loByte_readWord] at hbit, rfl, rfl, rfl⟩

/-- Settles O50: the instruction leaves I set and the control fields as they were, so the next step accepts a line. -/
theorem enablingInterruptsActsAtTheNextStep : Obligations.EnablingInterruptsActsAtTheNextStep := by
  intro s t i hs hi h hbudget hk
  obtain ⟨hset, hpending, hhalted, hfault⟩ := enabled_after hi h
  obtain ⟨⟨hsfault, hshalted, -⟩, hline⟩ := hs
  have hrunning : t.Running := ⟨hfault.trans hsfault, hhalted.trans hshalted, hbudget⟩
  have hinm : t.pending.getLsbD 7 = false := by
    rw [hpending]
    by_contra h7
    rw [acceptedLine_inm (by simpa using h7)] at hline
    cases hline
  obtain ⟨k, -, hkp, hkline⟩ := acceptedLine_of_enabled hinm hset (hpending ▸ hk)
  exact ⟨k, hpending ▸ hkp, stepWith_service standardConfig t k hrunning hkline⟩

/-! ### The frame -/

/-- The word of a frame that is pushed first, and so lies higher (R215, R216). -/
def upperWord (s : State) (o : IrqFrameOrder) : Word := if o = .statusThenPc then zext16 s.status else s.pc

/-- The word of a frame that is pushed second (R215, R216). -/
def lowerWord (s : State) (o : IrqFrameOrder) : Word := if o = .statusThenPc then s.pc else zext16 s.status

theorem sub_two_sub_two (a : Word) : a - 2 - 2 = a - 4 := by bv_omega

/-- A service stores the two words of the frame, one below the other, under either order (R215, R216). -/
theorem service_mem_eq (s : State) (o : IrqFrameOrder) (k : Fin 8) :
    (s.service o k).mem =
      Memory.writeWord (Memory.writeWord s.mem (s.sp - 2) (upperWord s o)) (s.sp - 4) (lowerWord s o) := by
  rw [State.service_mem, sub_two_sub_two]
  cases o <;> rfl

/-- The lower word of the frame reads back. -/
theorem readWord_lower {s : State} (h : Memory.wf s.mem = true) (o : IrqFrameOrder) (k : Fin 8) :
    Memory.readWord (s.service o k).mem (s.sp - 4) = lowerWord s o := by
  rw [service_mem_eq]
  exact Memory.readWord_writeWord _ _ _ (Memory.wf_writeWord _ _ _ h)

/-- The upper word reads back where the lower does not overlap it (D1). -/
theorem readWord_upper {s : State} (h : Memory.wf s.mem = true) (o : IrqFrameOrder) (k : Fin 8)
    (hapart : WordsApart s.mem.size (s.sp - 4) (s.sp - 2)) :
    Memory.readWord (s.service o k).mem (s.sp - 2) = upperWord s o := by
  rw [service_mem_eq, Memory.readWord_writeWord_apart _ _ _ _ (Memory.wf_writeWord _ _ _ h) hapart]
  exact Memory.readWord_writeWord _ _ _ h

theorem frameWordsApart_default {s : State} (h : s.mem.size = 65536) :
    WordsApart s.mem.size (s.sp - 4) (s.sp - 2) := by
  have htwo : s.sp - 2 = s.sp - 4 + 2 := by bv_omega
  rw [h, htwo]
  exact wordsApart_default (s.sp - 4)

/-- Settles O47: the frame is two word stores, the second over the first, and the vector is read after both. -/
theorem serviceSavesTheFrameAndVectors : Obligations.ServiceSavesTheFrameAndVectors := by
  intro s k order h t statusWord upper lower
  have hupper : upper = upperWord s order := by simp only [upper, statusWord, upperWord, zext16_eq_ofNat]
  have hlower : lower = lowerWord s order := by simp only [lower, statusWord, lowerWord, zext16_eq_ofNat]
  rw [hupper, hlower, wordIn_eq, wordIn_eq, wordIn_eq]
  have hframe : ∃ u : State, StoresWord s u (s.sp - 2) (upperWord s order) ∧
      StoresWord u t (s.sp - 4) (lowerWord s order) :=
    ⟨s.memWrite16 (s.sp - 2) (upperWord s order), storesWord_of_mem_eq_writeWord h rfl,
      storesWord_of_mem_eq_writeWord (State.wf_memWrite16 s _ _ h) (service_mem_eq s order k)⟩
  exact ⟨hframe, readWord_lower h order k, readWord_upper h order k, frameWordsApart_default, State.service_pc s order k,
    State.service_sp s order k, State.service_reg s order k, service_pending_getLsbD s order k,
    service_status_getLsbD s order k, State.service_halted s order k, State.service_fault s order k,
    State.service_cycles s order k⟩

/-! ### The return sequences -/

@[simp] theorem loByte_zext16 (v : Byte) : loByte (zext16 v) = v := by
  have := v.isLt
  apply BitVec.eq_of_toNat_eq
  rw [toNat_loByte, zext16, BitVec.toNat_setWidth]
  omega

@[simp] theorem sub_four_add_two (a : Word) : a - 4 + 2 = a - 2 := by bv_omega

/-- POP of a register other than `sp`, by the registers the program sees (R192). -/
theorem exec_pop_frame (t : State) {x : Reg} (hsp : x ≠ .sp) :
    ∃ a, exec (.pop x) t = .next a ∧ a.reg x = Memory.readWord t.mem t.sp ∧ a.sp = t.sp + 2 ∧ a.mem = t.mem ∧
      ∀ q, q ≠ x → q ≠ .pc → q ≠ .sp → a.reg q = t.reg q := by
  refine ⟨_, exec_pop x t, ?_, ?_, ?_, fun q hx hqpc hqsp => ?_⟩ <;> simp [*]

/-- POPS, by the registers the program sees (R194). -/
theorem exec_pops_frame (t : State) :
    ∃ a, exec .pops t = .next a ∧ a.status = loByte (Memory.readWord t.mem t.sp) ∧ a.sp = t.sp + 2 ∧ a.mem = t.mem ∧
      ∀ q, q ≠ .pc → q ≠ .sp → a.reg q = t.reg q := by
  refine ⟨_, exec_pops t, rfl, rfl, rfl, fun q hpc hsp => ?_⟩
  simp [*]

/-- The default order: `pc` is on top, then the status word. -/
theorem return_of_statusThenPc {s : State} (h : Memory.wf s.mem = true)
    (hapart : WordsApart s.mem.size (s.sp - 4) (s.sp - 2)) (k : Fin 8) {x : Reg} (hpc : x ≠ .pc) (hsp : x ≠ .sp) :
    ∃ a b c, exec (.pop x) (s.service .statusThenPc k) = .next a ∧ exec .pops a = .next b ∧
      exec (.jmp (.ind x)) b = .next c ∧ c.pc = s.pc ∧ c.sp = s.sp ∧ c.status = s.status ∧
      ∀ q, q ≠ x → c.reg q = s.reg q := by
  obtain ⟨a, ha, hax, hasp, hamem, hareg⟩ := exec_pop_frame (s.service .statusThenPc k) hsp
  obtain ⟨b, hb, hbstatus, hbsp, -, hbreg⟩ := exec_pops_frame a
  rw [State.service_sp, readWord_lower h] at hax
  rw [State.service_sp, sub_four_add_two] at hasp
  rw [hamem, hasp, readWord_upper h _ _ hapart] at hbstatus
  rw [hasp, sub_two_add_two] at hbsp
  have hcpc : b.reg x = s.pc := (hbreg x hpc hsp).trans hax
  refine ⟨a, b, _, ha, hb, exec_jmp (.ind x) b, ?_, ?_, ?_, fun q hq => ?_⟩
  · simpa [State.ea, hpc] using hcpc
  · simpa using hbsp
  · simpa using hbstatus.trans (loByte_zext16 s.status)
  · by_cases hqpc : q = .pc
    · simpa [hqpc, State.ea, hpc] using hcpc
    · by_cases hqsp : q = .sp
      · simpa [hqsp] using hbsp
      · simp [hqpc, hbreg q hqpc hqsp, hareg q hq hqpc hqsp, State.service_reg s _ k q hqpc hqsp]

/-- The other order: the status word is on top, then `pc`. -/
theorem return_of_pcThenStatus {s : State} (h : Memory.wf s.mem = true)
    (hapart : WordsApart s.mem.size (s.sp - 4) (s.sp - 2)) (k : Fin 8) :
    ∃ a b, exec .pops (s.service .pcThenStatus k) = .next a ∧ exec .rtn a = .next b ∧ b.status = s.status ∧
      ∀ q, b.reg q = s.reg q := by
  obtain ⟨a, ha, hastatus, hasp, hamem, hareg⟩ := exec_pops_frame (s.service .pcThenStatus k)
  rw [State.service_sp, readWord_lower h] at hastatus
  rw [State.service_sp, sub_four_add_two] at hasp
  have hreturn : Memory.readWord a.mem a.sp = s.pc := by rw [hamem, hasp, readWord_upper h _ _ hapart]; rfl
  refine ⟨a, _, ha, exec_rtn a, hastatus.trans (loByte_zext16 s.status), fun q => ?_⟩
  by_cases hqpc : q = .pc
  · simpa [hqpc] using hreturn
  · by_cases hqsp : q = .sp
    · simp [hqsp, hasp]
    · simp [hqpc, hqsp, hareg q hqpc hqsp, State.service_reg s _ k q hqpc hqsp]

/-- Settles O48: each sequence takes the words off in the order they lie, and no instruction of it writes memory. -/
theorem returnSequencesResumeTheProgram : Obligations.ReturnSequencesResumeTheProgram :=
  ⟨fun _ => frameWordsApart_default, fun _ k h hapart =>
    ⟨fun _ => return_of_statusThenPc h hapart k, return_of_pcThenStatus h hapart k⟩⟩

/-! ### The pending byte -/

/-- What a pass can do to the pending byte (R213, R215, R101). -/
theorem stepWith_pending {cfg : Config} {s t : State} (h : stepWith cfg s = .next t) :
    t.pending = s.pending ∨
      (∃ k : Fin 8, s.acceptedLine = some k ∧
        ∀ j, t.pending.getLsbD j = if j = k.val then false else s.pending.getLsbD j) ∨
      (s.acceptedLine = none ∧ decodeAt cfg s.stream = .ok .reset ∧ t.pending = 0) := by
  obtain ⟨hrunning, _⟩ := stepWith_cases cfg s t h
  cases hline : s.acceptedLine with
  | some k =>
    cases (stepWith_service cfg s k hrunning hline).symm.trans h
    exact .inr (.inl ⟨k, rfl, service_pending_getLsbD s cfg.irqFrameOrder k⟩)
  | none =>
    rcases pending_of_fetch ⟨hrunning, hline⟩ h with hsame | ⟨hd, hzero⟩
    · exact .inl hsame
    · exact .inr (.inr ⟨rfl, hd, hzero⟩)

/-- No pass sets a pending bit (R32). -/
theorem stepWith_pending_le {cfg : Config} {s t : State} (h : stepWith cfg s = .next t) {j : Nat}
    (hj : t.pending.getLsbD j = true) : s.pending.getLsbD j = true := by
  rcases stepWith_pending h with hsame | ⟨k, -, hbits⟩ | ⟨-, -, hzero⟩
  · exact hsame ▸ hj
  · rw [hbits] at hj
    split at hj
    · cases hj
    · exact hj
  · rw [hzero] at hj
    simp at hj

/-- Settles O49: by what an instruction, a pass, a call and a host operation can do. -/
theorem pendingChangesOnlyByServiceResetAndHost : Obligations.PendingChangesOnlyByServiceResetAndHost := by
  refine ⟨fun i s t => exec_pending, fun cfg s t => stepWith_pending, fun cfg budget s j hj => ?_,
    fun cfg op s t out h => ?_⟩
  · exact executeWith_keeps (P := fun t => t.pending.getLsbD j = true → s.pending.getLsbD j = true)
      (fun _ _ ht h hj => ht (stepWith_pending_le h hj)) (fun _ _ ht => ht) budget id hj
  · obtain ⟨-, heffect⟩ := hostEffect_of_hostStep h
    cases heffect <;> simp

end Sys2Proof.Proofs

end

/-! PROOFS. Runs and the host (60_exceptions.md R210, R222 to R242, 70_reset_and_hazards.md R256, R263): where a call
ends and what it reports, calls cut by their budget, and what only reset undoes. -/

section

namespace Sys2Proof.Proofs

open Sys2Proof.Machine Sys2Proof.Statements

/-! ### Halt and fault stand until reset -/

/-- A call on a core that is halted or faulted leaves both as they are (R210, R242). -/
theorem executeWith_of_ended (cfg : Config) (budget : Int) {s : State} (h : s.halted = true ∨ s.fault ≠ none) :
    (executeWith cfg budget s).1.halted = s.halted ∧ (executeWith cfg budget s).1.fault = s.fault := by
  cases hf : s.fault with
  | some r => rw [executeWith_of_fault cfg budget s r hf]; exact ⟨rfl, hf⟩
  | none =>
    have hstop : ¬ State.Running { s with cycles := some budget } := fun ⟨_, hrunning, _⟩ => by
      rcases h with h | h
      · exact absurd h (ne_true_of_eq_false hrunning)
      · exact h hf
    rw [executeWith_of_no_fault cfg budget s hf, runLoop_of_not_running cfg _ _ hstop]
    exact ⟨rfl, hf⟩

/-- No host operation but reset changes the halted flag or the fault record of a core that is halted or faulted (R240,
R242). -/
theorem hostEffect_of_ended {cfg : Config} {op : HostOp} {s t : State} (h : HostEffect cfg s op t) (hop : op ≠ .reset)
    (hs : s.halted = true ∨ s.fault ≠ none) : t.halted = s.halted ∧ t.fault = s.fault := by
  cases h with
  | reset => exact absurd rfl hop
  | writeReg i v => exact ⟨State.setReg_halted s i v, State.setReg_fault s i v⟩
  | execute budget => exact executeWith_of_ended cfg budget hs
  | load | writeMem | writeStatus | writePending => exact ⟨rfl, rfl⟩

/-- Settles O54: neither the loop nor a host operation other than reset gets past the flag or the record. -/
theorem onlyResetClearsHaltAndFault : Obligations.OnlyResetClearsHaltAndFault := by
  refine ⟨fun cfg s h => stepWith_of_not_running cfg s fun ⟨hfault, hhalted, _⟩ => ?_, fun cfg op s t out h hop => ?_⟩
  · rcases h with h | h
    · exact absurd h (ne_true_of_eq_false hhalted)
    · exact h hfault
  · obtain ⟨-, heffect⟩ := hostEffect_of_hostStep h
    exact ⟨fun hs => (hostEffect_of_ended heffect hop (.inl hs)).1.trans hs,
      fun r hr => (hostEffect_of_ended heffect hop (.inr (by simp [hr]))).2.trans hr⟩

/-! ### Where the loop ends -/

theorem not_running_of_counter {s : State} {c : Int} (hc : s.cycles = some c) (hle : c ≤ 0) : ¬ s.Running :=
  fun ⟨_, _, hbudget⟩ => absurd ((budgetLeft_iff s).1 hbudget c hc) (by omega)

/-- Every pass costs a cycle, so a loop with as many passes as the counter ends by itself (R223, R224). -/
theorem runLoop_not_running (cfg : Config) {n : Nat} {s : State} {c : Int} (hc : s.cycles = some c) (hle : c ≤ n) :
    ¬ (runLoop cfg n s).Running := by
  induction n generalizing s c with
  | zero => exact not_running_of_counter hc hle
  | succ n ih =>
    by_cases hr : s.Running
    · obtain ⟨t, ht⟩ := stepWith_running cfg s hr
      obtain ⟨-, k, hk, -, htc⟩ := stepWith_counter ht hc
      rw [runLoop_succ cfg n s t ht]
      exact ih htc (by omega)
    · rwa [runLoop_of_not_running cfg _ s hr]

theorem runLoop_add (cfg : Config) (m n : Nat) (s : State) : runLoop cfg (m + n) s = runLoop cfg n (runLoop cfg m s) := by
  induction m generalizing s with
  | zero => rw [Nat.zero_add]; rfl
  | succ m ih =>
    by_cases hr : s.Running
    · obtain ⟨t, ht⟩ := stepWith_running cfg s hr
      rw [Nat.add_right_comm, runLoop_succ cfg _ s t ht, runLoop_succ cfg _ s t ht, ih]
    · simp only [runLoop_of_not_running cfg _ s hr]

/-- More passes than the counter change nothing (log 11). -/
theorem runLoop_stable (cfg : Config) {m n : Nat} {s : State} {c : Int} (hc : s.cycles = some c) (hle : c ≤ m)
    (hmn : m ≤ n) : runLoop cfg n s = runLoop cfg m s := by
  obtain ⟨k, rfl⟩ := Nat.exists_eq_add_of_le hmn
  rw [runLoop_add, runLoop_of_not_running cfg k _ (runLoop_not_running cfg hc hle)]

/-- The counter along a call that began with budget `b`: it only falls, by a positive budget not below -6, and a core
that is halted has not overrun a budget it was given (R222, R224, R234). -/
structure CallCounter (b : Int) (s : State) (c : Int) : Prop where
  counter : s.cycles = some c
  le : c ≤ b
  ge : 0 < b → -6 ≤ c
  halted : 0 ≤ b → s.fault = none → s.halted = true → 0 ≤ c

/-- HALT costs one cycle, which was in the counter; nothing else ends a pass halted (R102). -/
theorem counter_of_halting {cfg : Config} {s t : State} {c : Int} (h : stepWith cfg s = .next t)
    (hc : s.cycles = some c) (hhalted : t.halted = true) : t.cycles = some (c - 1) := by
  obtain ⟨⟨-, hs, -⟩, ⟨k, -, rfl⟩ | ⟨-, i, -, hi⟩ | ⟨-, e, -, rfl⟩⟩ := stepWith_cases cfg s t h
  · exact absurd ((State.service_halted s _ k).symm.trans hhalted) (ne_true_of_eq_false hs)
  · rcases exec_control_cases hi with ⟨-, rfl⟩ | ⟨-, rfl⟩ | ⟨-, n, rfl⟩ | ⟨-, -, hh, -⟩
    · cases hhalted
    · simp [hc]
    · exact absurd hhalted (ne_true_of_eq_false hs)
    · exact absurd (hh.symm.trans hhalted) (ne_true_of_eq_false hs)
  · exact absurd hhalted (ne_true_of_eq_false hs)

theorem callCounter_runLoop (cfg : Config) (b : Int) (n : Nat) (s : State) :
    ∃ c, CallCounter b (runLoop cfg n { s with cycles := some b }) c := by
  refine runLoop_keeps (P := fun t => ∃ c, CallCounter b t c) ?_ n ⟨b, rfl, le_rfl, by omega, fun hb _ _ => hb⟩
  rintro u t ⟨c, hc⟩ h
  obtain ⟨hpos, k, hk, hle, htc⟩ := stepWith_counter h hc.counter
  have hcb := hc.le
  refine ⟨c - k, htc, by omega, by omega, fun _ _ hhalted => ?_⟩
  have hone : c - 1 = c - k := Option.some.inj ((counter_of_halting h hc.counter hhalted).symm.trans htc)
  omega

/-- A core that does not run, in a call, has a fault, is halted, or has used up its budget (R224). -/
theorem ended_cases {s : State} {c : Int} (hc : s.cycles = some c) (h : ¬ s.Running) :
    s.fault ≠ none ∨ s.halted = true ∨ c ≤ 0 := by
  by_contra hnone
  obtain ⟨hfault, hhalted, hpos⟩ : s.fault = none ∧ s.halted = false ∧ 0 < c := by simpa using hnone
  exact h ⟨hfault, hhalted, (budgetLeft_iff s).2 fun c' hc' => by cases hc.symm.trans hc'; exact hpos⟩

/-- Settles O56: a counter falls with every pass, so as many passes as the budget are enough, and more are not made. -/
theorem executeEndsWhereTheLoopEnds : Obligations.ExecuteEndsWhereTheLoopEnds := by
  intro cfg budget s _ start last
  obtain ⟨c, hc⟩ := callCounter_runLoop cfg budget budget.toNat s
  have hstop : ¬ last.Running := runLoop_not_running cfg rfl (Int.self_le_toNat budget)
  refine ⟨(ended_cases hc.counter hstop).imp_right (Or.imp_right fun hle => ⟨c, hc.counter, hle⟩), fun n hn => ?_⟩
  exact runLoop_stable cfg rfl (Int.self_le_toNat budget) hn

/-! ### What a call reports -/

theorem outcome_reason_faulted_iff (s : State) (r : FaultRecord) : s.outcome.reason = .faulted r ↔ s.fault = some r := by
  cases hf : s.fault <;> cases hh : s.halted <;> simp [State.outcome, hf, hh]

theorem outcome_reason_halted_iff (s : State) : s.outcome.reason = .halted ↔ s.fault = none ∧ s.halted = true := by
  cases hf : s.fault <;> cases hh : s.halted <;> simp [State.outcome, hf, hh]

theorem outcome_reason_budgetExhausted_iff (s : State) :
    s.outcome.reason = .budgetExhausted ↔ s.fault = none ∧ s.halted = false := by
  cases hf : s.fault <;> cases hh : s.halted <;> simp [State.outcome, hf, hh]

theorem outcome_overrun {s : State} {c : Int} (hc : s.cycles = some c) : s.outcome.overrun = decide (c < 0) := by
  simp [State.outcome, hc]

/-- Where a core that is not faulted is called, the call ends with budget used up only if the counter is (R224, R235).
-/
theorem counter_of_budgetExhausted {s : State} {c : Int} (hc : s.cycles = some c) (hstop : ¬ s.Running)
    (hreason : s.outcome.reason = .budgetExhausted) : c ≤ 0 := by
  obtain ⟨hfault, hhalted⟩ := (outcome_reason_budgetExhausted_iff s).1 hreason
  rcases ended_cases hc hstop with h | h | h
  · exact absurd hfault h
  · exact absurd h (ne_true_of_eq_false hhalted)
  · exact h

/-- Settles O57: the report is read off the last state of the loop, whose counter and whose end are known. -/
theorem executeReportsTheCounter : Obligations.ExecuteReportsTheCounter := by
  constructor
  · intro cfg budget s hs
    rw [executeWith_of_no_fault cfg budget s hs]
    obtain ⟨c, hc⟩ := callCounter_runLoop cfg budget budget.toNat s
    have hstop := runLoop_not_running cfg (s := { s with cycles := some budget }) rfl (Int.self_le_toNat budget)
    generalize runLoop cfg budget.toNat { s with cycles := some budget } = last at hc hstop ⊢
    refine ⟨rfl, outcome_reason_faulted_iff last, outcome_reason_halted_iff last,
      outcome_reason_budgetExhausted_iff last, c, hc.counter, hc.le, hc.ge, ?_, fun hb hreason => ?_,
      counter_of_budgetExhausted hc.counter hstop⟩
    · rw [outcome_overrun hc.counter, decide_eq_true_iff]
    · obtain ⟨hfault, hhalted⟩ := (outcome_reason_halted_iff last).1 hreason
      exact hc.halted hb hfault hhalted
  · intro cfg budget s record hs hf
    have hidle : s.cycles = none := hs
    rw [executeWith_of_fault cfg budget s record hf]
    simp [State.outcome, hf, hidle]

/-- Settles O58: without budget the first pass is not made, and with a budget of 1 the loop makes one pass at most. -/
theorem budgetOneIsASingleStep : Obligations.BudgetOneIsASingleStep := by
  refine ⟨fun cfg budget s hs hf hb => ?_, fun cfg s hf hh => ?_⟩
  · rw [executeWith_of_no_fault cfg budget s hf, runLoop_of_not_running cfg _ _ (not_running_of_counter rfl hb),
      endCall_setCycles hs]
    simp [State.outcome, hf]
  · have hrunning : State.Running { s with cycles := some 1 } := ⟨hf, hh, rfl⟩
    obtain ⟨t, ht⟩ := stepWith_running cfg _ hrunning
    refine ⟨t, ht, ?_⟩
    rw [executeWith_of_no_fault cfg 1 s hf]
    have hloop : runLoop cfg (1 : Int).toNat { s with cycles := some 1 } = t := runLoop_succ cfg 0 _ t ht
    rw [hloop]

/-! ### Calls cut by their budget -/

/-- The counter of the call in progress raised by `d`. -/
def addBudget (s : State) (d : Int) : State := { s with cycles := s.cycles.map (· + d) }

/-- Two states that differ in the counter alone, and do not differ there, are one. -/
theorem eq_of_endCall_eq {s t : State} (h : s.endCall = t.endCall) (hc : s.cycles = t.cycles) : s = t := by
  have hs : s = { s.endCall with cycles := s.cycles } := rfl
  rw [hs, h, hc]
  rfl

theorem endCall_setReg (s : State) (a : Reg) (v : Word) : (s.setReg a v).endCall = s.endCall.setReg a v := by
  cases a <;> rfl

theorem endCall_arith (s : State) (k : ArithKind) (a : Reg) (va vb : Word) :
    (s.arith k a va vb).endCall = s.endCall.arith k a va vb := by
  cases a <;> rfl

theorem endCall_jumpIf (s : State) (c : Bool) (ea : Word) : (s.jumpIf c ea).endCall = s.endCall.jumpIf c ea := by
  cases c <;> rfl

theorem endCall_service (s : State) (o : IrqFrameOrder) (k : Fin 8) :
    (s.service o k).endCall = s.endCall.service o k := by
  cases o <;> rfl

/-- No instruction reads the counter (R222). -/
theorem exec_endCall {i : Instr} {s t : State} (h : exec i s = .next t) : exec i s.endCall = .next t.endCall := by
  cases i with
  | div a b =>
    by_cases hb : (s.fetchedAs .frr false).reg b = 0
    · cases (exec_div_zero a b s hb).symm.trans h; exact exec_div_zero a b s.endCall hb
    · cases (exec_div a b s hb).symm.trans h
      rw [endCall_arith]
      exact exec_div a b s.endCall hb
  | divc a w =>
    by_cases hw : w = 0
    · cases (exec_divc_zero a w s hw).symm.trans h; exact exec_divc_zero a w s.endCall hw
    · cases (exec_divc a w s hw).symm.trans h
      rw [endCall_arith]
      exact exec_divc a w s.endCall hw
  | add | sub | mul | addc | subc | mulc | inc | dec => cases h; rw [endCall_arith]; rfl
  | ldr | uxt | lsl | lsr | ldc | ldm | pop => cases h; rw [endCall_setReg]; rfl
  | jre | jrn | jrg | jrge | jrl | jrle | jrz => cases h; rw [endCall_jumpIf]; rfl
  | _ => cases h; rfl

theorem map_sub_add (x : Option Int) (n : Nat) (d : Int) :
    (x.map (· - (n : Int))).map (· + d) = (x.map (· + d)).map (· - (n : Int)) := by
  cases x with
  | none => rfl
  | some c => simp only [Option.map_some, Option.some.injEq]; omega

/-- What charges alike and does alike otherwise does so under a raised counter. -/
theorem addBudget_eq_of_charged {s t u : State} {d : Int} {n : Nat} (ht : Charged s t n)
    (hu : Charged (addBudget s d) u n) (h : u.endCall = t.endCall) : u = addBudget t d := by
  refine eq_of_endCall_eq h ?_
  rw [hu]
  simp only [addBudget, show t.cycles = _ from ht]
  exact (map_sub_add s.cycles n d).symm

/-- A pass that is made is the same pass under a raised counter (R222, R263). -/
theorem stepWith_addBudget {cfg : Config} {s t : State} (h : stepWith cfg s = .next t) {d : Int} (hd : 0 ≤ d) :
    stepWith cfg (addBudget s d) = .next (addBudget t d) := by
  obtain ⟨⟨hfault, hhalted, hbudget⟩, hcases⟩ := stepWith_cases cfg s t h
  have hleft : (addBudget s d).budgetLeft = true := by
    refine (budgetLeft_iff _).2 fun c hc => ?_
    obtain ⟨c', hc', rfl⟩ := Option.map_eq_some_iff.1 hc
    have := (budgetLeft_iff s).1 hbudget c' hc'
    omega
  have hrunning : (addBudget s d).Running := ⟨hfault, hhalted, hleft⟩
  rcases hcases with ⟨k, hk, rfl⟩ | ⟨hk, i, hi, he⟩ | ⟨hk, e, he, rfl⟩
  · rw [stepWith_service cfg (addBudget s d) k hrunning hk]
    refine congrArg _ (addBudget_eq_of_charged (n := 6) (State.service_cycles s _ k) (State.service_cycles _ _ k) ?_)
    rw [endCall_service, endCall_service]
    rfl
  · rw [stepWith_of_decodeAt cfg (addBudget s d) i ⟨hrunning, hk⟩ hi]
    obtain ⟨u, hu⟩ := exec_isNext i (addBudget s d)
    rw [hu]
    refine congrArg _ (addBudget_eq_of_charged (charged_exec he) (charged_exec hu) ?_)
    have hu' : exec i s.endCall = .next u.endCall :=
      exec_endCall (s := addBudget s d) hu
    exact Host.Outcome.next.inj (hu'.symm.trans (exec_endCall he))
  · rw [stepWith_fetch cfg (addBudget s d) ⟨hrunning, hk⟩, runInstr_error cfg (addBudget s d) e he]
    exact congrArg _ (addBudget_eq_of_charged (n := e.fetched) rfl rfl rfl)

/-- The passes of a loop are the first passes of the loop under a raised counter, which may make more. -/
theorem runLoop_addBudget (cfg : Config) (n : Nat) (s : State) {d : Int} (hd : 0 ≤ d) :
    ∃ m, ∀ k, runLoop cfg (m + k) (addBudget s d) = runLoop cfg k (addBudget (runLoop cfg n s) d) := by
  induction n generalizing s with
  | zero => exact ⟨0, fun k => by rw [Nat.zero_add]; rfl⟩
  | succ n ih =>
    by_cases hr : s.Running
    · obtain ⟨t, ht⟩ := stepWith_running cfg s hr
      obtain ⟨m, hm⟩ := ih t
      refine ⟨m + 1, fun k => ?_⟩
      rw [Nat.add_right_comm, runLoop_succ cfg _ _ _ (stepWith_addBudget ht hd), hm k, runLoop_succ cfg n s t ht]
    · exact ⟨0, fun k => by rw [runLoop_of_not_running cfg _ s hr, Nat.zero_add]⟩

/-- Settles O59: the first call's passes are the first passes of the whole call, and each call makes as many passes as
it has budget for, whatever the bound on their number. -/
theorem splittingTheBudgetChangesNothing : Obligations.SplittingTheBudgetChangesNothing := by
  intro cfg b1 b2 c s _ hb2 hreason hcycles
  cases hf : s.fault with
  | some r =>
    rw [executeWith_of_fault cfg b1 s r hf] at hreason
    cases hf.symm.trans ((outcome_reason_budgetExhausted_iff s).1 hreason).1
  | none =>
    rw [executeWith_of_no_fault cfg b1 s hf] at hreason hcycles ⊢
    have hstop := runLoop_not_running cfg (s := { s with cycles := some b1 }) rfl (Int.self_le_toNat b1)
    have hc : c ≤ 0 := counter_of_budgetExhausted hcycles hstop hreason
    obtain ⟨m, hm⟩ := runLoop_addBudget cfg b1.toNat { s with cycles := some b1 } (d := b2 - c) (by omega)
    have hwhole : addBudget { s with cycles := some b1 } (b2 - c) = { s with cycles := some (b1 - c + b2) } := by
      simp only [addBudget, Option.map_some, show b1 + (b2 - c) = b1 - c + b2 by omega]
    generalize runLoop cfg b1.toNat { s with cycles := some b1 } = mid at *
    have hrest : addBudget mid (b2 - c) = { mid.endCall with cycles := some b2 } := by
      have hmid : mid.cycles = some c := hcycles
      simp only [addBudget, hmid, Option.map_some, show c + (b2 - c) = b2 by omega]
      rfl
    have hfault : mid.endCall.fault = none := ((outcome_reason_budgetExhausted_iff mid).1 hreason).1
    have hloop : runLoop cfg (b1 - c + b2).toNat { s with cycles := some (b1 - c + b2) } =
        runLoop cfg b2.toNat { mid.endCall with cycles := some b2 } := by
      calc runLoop cfg (b1 - c + b2).toNat { s with cycles := some (b1 - c + b2) }
          = runLoop cfg (m + ((b1 - c + b2).toNat + b2.toNat)) { s with cycles := some (b1 - c + b2) } :=
            (runLoop_stable cfg rfl (Int.self_le_toNat _) (by omega)).symm
        _ = runLoop cfg ((b1 - c + b2).toNat + b2.toNat) { mid.endCall with cycles := some b2 } := by
            rw [← hwhole, hm, hrest]
        _ = runLoop cfg b2.toNat { mid.endCall with cycles := some b2 } :=
            runLoop_stable cfg rfl (Int.self_le_toNat b2) (by omega)
    rw [executeWith_of_no_fault cfg _ s hf, executeWith_of_no_fault cfg b2 mid.endCall hfault, hloop]

/-! ### Load -/

/-- Settles O60: an image that fits is copied byte by byte, and one that does not is refused by its length. -/
theorem loadCopiesTheImageToAddressZero : Obligations.LoadCopiesTheImageToAddressZero := by
  intro cfg s image hs h
  have hidle : s.cycles = none := hs
  refine ⟨fun hlong => ?_, fun hfits => ⟨{ s with mem := Memory.writeBytes s.mem 0 image }, ?_, fun a ha => ?_, ?_, rfl⟩⟩
  · simp [hostStep, hidle, State.load, Nat.not_le_of_lt hlong, Except.map]
  · simp [hostStep, hidle, State.load, hfits, Except.map]
  · have hread := Memory.readByte_writeBytes s.mem 0 image a h (by omega) ha
    simpa using hread
  · exact Memory.writeBytes_size s.mem 0 image

end Sys2Proof.Proofs

end

/-! PROOFS. The status byte (10_state.md R27 to R29): of its bits only I has a part in what the core does. -/

section

namespace Sys2Proof.Proofs

open Sys2Proof.Machine Sys2Proof.Statements

/-! ### The operations under another status byte -/

theorem setReg_withStatus (s : State) (v : Byte) (a : Reg) (w : Word) :
    (withStatus s v).setReg a w = withStatus (s.setReg a w) v := by
  cases a <;> rfl

theorem jumpIf_withStatus (s : State) (v : Byte) (c : Bool) (ea : Word) :
    (withStatus s v).jumpIf c ea = withStatus (s.jumpIf c ea) v := by
  cases c <;> rfl

theorem arith_withStatus (s : State) (v : Byte) (k : ArithKind) (a : Reg) (va vb : Word) :
    (withStatus s v).arith k a va vb =
      withStatus (s.arith k a va vb) (arithFlags k (k.result va vb).1 (k.result va vb).2 v) := by
  cases a <;> rfl

/-- Two status bytes agree on I. -/
def AgreeOnI (v w : Byte) : Prop := v.getLsbD 4 = w.getLsbD 4

/-- The flags are computed from the results, and I is none of those written (R110). -/
theorem arithFlags_agreeOnI {v w : Byte} (h : AgreeOnI v w) (k : ArithKind) (r sr : Int) :
    AgreeOnI (arithFlags k r sr v) (arithFlags k r sr w) := by
  rw [AgreeOnI, arithFlags_getLsbD_other k r sr v (by decide), arithFlags_getLsbD_other k r sr w (by decide)]
  exact h

theorem setFlag_i_agreeOnI (v w : Byte) (x : Bool) : AgreeOnI (setFlag v .i x) (setFlag w .i x) :=
  (setFlag_getLsbD v .i 4 x).trans (setFlag_getLsbD w .i 4 x).symm

theorem arith_agreeOnI {s : State} {v : Byte} (h : AgreeOnI v s.status) (k : ArithKind) (a : Reg) (va vb : Word) :
    ∃ x, .next ((withStatus s v).arith k a va vb) = (.next (withStatus (s.arith k a va vb) x) : Outcome) ∧
      AgreeOnI x (s.arith k a va vb).status := by
  refine ⟨_, congrArg _ (arith_withStatus s v k a va vb), ?_⟩
  rw [State.arith_status]
  exact arithFlags_agreeOnI h k _ _

/-- Under a status byte that agrees on I every instruction but PUSHS leaves the same state but for a status byte that
again agrees on I (R29). -/
theorem exec_withStatus {i : Instr} {s t : State} {v : Byte} (hi : i ≠ .pushs) (hv : AgreeOnI v s.status)
    (h : exec i s = .next t) : ∃ w, exec i (withStatus s v) = .next (withStatus t w) ∧ AgreeOnI w t.status := by
  cases i with
  | pushs => exact absurd rfl hi
  | div a b =>
    by_cases hb : (s.fetchedAs .frr false).reg b = 0
    · cases (exec_div_zero a b s hb).symm.trans h
      exact ⟨v, exec_div_zero a b (withStatus s v) hb, hv⟩
    · cases (exec_div a b s hb).symm.trans h
      rw [exec_div a b (withStatus s v) hb]
      exact arith_agreeOnI (s := s.fetchedAs .frr false) hv .div a _ _
  | divc a w =>
    by_cases hw : w = 0
    · cases (exec_divc_zero a w s hw).symm.trans h
      exact ⟨v, exec_divc_zero a w (withStatus s v) hw, hv⟩
    · cases (exec_divc a w s hw).symm.trans h
      rw [exec_divc a w (withStatus s v) hw]
      exact arith_agreeOnI (s := s.fetchedAs .frw false) hv .div a _ _
  | add a b => cases h; exact arith_agreeOnI (s := s.fetchedAs .frr false) hv .add a _ _
  | sub a b => cases h; exact arith_agreeOnI (s := s.fetchedAs .frr false) hv .sub a _ _
  | mul a b => cases h; exact arith_agreeOnI (s := s.fetchedAs .frr false) hv .mul a _ _
  | addc a w => cases h; exact arith_agreeOnI (s := s.fetchedAs .frw false) hv .add a _ _
  | subc a w => cases h; exact arith_agreeOnI (s := s.fetchedAs .frw false) hv .sub a _ _
  | mulc a w => cases h; exact arith_agreeOnI (s := s.fetchedAs .frw false) hv .mul a _ _
  | inc a => cases h; exact arith_agreeOnI (s := s.fetchedAs .fr false) hv .add a _ _
  | dec a => cases h; exact arith_agreeOnI (s := s.fetchedAs .fr false) hv .sub a _ _
  | ldr | uxt | lsl | lsr | ldc | ldm | pop =>
    cases h
    exact ⟨v, by rw [← setReg_withStatus]; rfl, by rw [State.setReg_status]; exact hv⟩
  | jre | jrn | jrg | jrge | jrl | jrle | jrz =>
    cases h
    exact ⟨v, by rw [← jumpIf_withStatus]; rfl, by rw [State.jumpIf_status]; exact hv⟩
  | pops | reset => cases h; exact ⟨_, rfl, rfl⟩
  | sei | cli => cases h; exact ⟨_, rfl, setFlag_i_agreeOnI v s.status _⟩
  | _ => cases h; exact ⟨v, rfl, hv⟩

/-- The high byte of the word PUSHS stores is 0, whatever the status (R193). -/
theorem hiByte_zext16 (v : Byte) : hiByte (zext16 v) = 0 := by
  have := v.isLt
  apply BitVec.eq_of_toNat_eq
  rw [toNat_hiByte, zext16, BitVec.toNat_setWidth]
  exact Nat.div_eq_of_lt (by omega)

/-- The words PUSHS stores of two status bytes differ in their low byte alone. -/
theorem readByte_push_zext16 {m : Memory} (h : Memory.wf m = true) (a : Word) (v w : Byte) {k : Nat}
    (hk : k % m.size ≠ a.toNat % m.size) :
    Memory.readByte (Memory.writeWord m a (zext16 v)) k = Memory.readByte (Memory.writeWord m a (zext16 w)) k := by
  rw [Memory.readByte_writeWord _ _ _ _ h, Memory.readByte_writeWord _ _ _ _ h, if_neg hk, if_neg hk, hiByte_zext16,
    hiByte_zext16]

theorem acceptedLine_withStatus {s : State} {v : Byte} (h : AgreeOnI v s.status) :
    (withStatus s v).acceptedLine = s.acceptedLine := by
  rw [acceptedLine_eq, acceptedLine_eq]
  simp only [withStatus, show v.getLsbD 4 = s.status.getLsbD 4 from h]

theorem withStatus_reg (s : State) (v : Byte) (q : Reg) : (withStatus s v).reg q = s.reg q := by cases q <;> rfl

/-- Settles O55: but for PUSHS the two runs differ in the status byte alone, and PUSHS stores it in one byte. -/
theorem onlyTheEnableBitSteersTheCore : Obligations.OnlyTheEnableBitSteersTheCore := by
  intro i s v hm hv
  refine ⟨acceptedLine_withStatus hv, ?_⟩
  by_cases hi : i = .pushs
  · subst hi
    refine ⟨_, _, exec_pushs s, exec_pushs (withStatus s v), hv, fun q => ?_, rfl, rfl, rfl, rfl, fun a ha => ?_⟩
    · cases q <;> rfl
    · exact readByte_push_zext16 hm (s.sp - 2) v s.status (ha rfl)
  · obtain ⟨t, ht⟩ := exec_isNext i s
    obtain ⟨w, hw, hagree⟩ := exec_withStatus hi hv ht
    exact ⟨t, _, ht, hw, hagree, withStatus_reg t w, rfl, rfl, rfl, rfl, fun _ _ => rfl⟩

end Sys2Proof.Proofs

end
